-- ==== Sys2Proof/Word.lean ====
section
/-! DEFINITION. The word and byte types and the two operations on words that are one primitive each (00_scope.md R7, R10, R11). -/

namespace Sys2Proof

/-- A word is 32 bits (R7). -/
abbrev Word := BitVec 32

/-- A byte is 8 bits (R7). -/
abbrev Byte := BitVec 8

/-- R10: addition modulo 2^32, no carry, no overflow, no trap. -/
def add32 (x y : Word) : Word := x + y

/-- R11: the 32-bit complement. -/
def not32 (x : Word) : Word := ~~~x

end Sys2Proof
end

