-- ==== Sys2Proof/Syntax.lean ====
section
/-! DEFINITION. What the engine can be asked to do: one constructor of Instr per row of opcode_table.json, the kinds of
micro-operation (30_encoding.md R74), and the two code spaces (R70, R74). -/

namespace Sys2Proof

/-- The rows of the opcode table. Command words carry their whole operand field; a round carries `i[3:0]`. -/
inductive Instr where
  /-- START (R138). -/
  | start
  /-- PUTC.ENC1 (R92, R139), `cp` in `0x00 .. 0x7F`. -/
  | putcEnc1 (cp : BitVec 21)
  /-- PUTC.ENC2 (R93, R139), `cp` in `0x80 .. 0x7FF`. -/
  | putcEnc2 (cp : BitVec 21)
  /-- PUTC.ENC3 (R94, R139), `cp` in `0x800 .. 0xD7FF` or `0xE000 .. 0xFFFF`. -/
  | putcEnc3 (cp : BitVec 21)
  /-- PUTC.ENC4 (R95, R139), `cp` in `0x10000 .. 0x10FFFF`. -/
  | putcEnc4 (cp : BitVec 21)
  /-- PUTC.BAD (R96, R139): an operand that is no scalar value. -/
  | putcBad (cp : BitVec 21)
  /-- FINISH (R140). -/
  | finish
  /-- RESERVED.OP0 (R73): `op = 0`. -/
  | reservedOp0 (x : BitVec 21)
  /-- RESERVED.START_ARG (R73): `op = 1` with `arg != 0`. -/
  | reservedStartArg (arg : BitVec 21)
  /-- RESERVED.FINISH_ARG (R73): `op = 3` with `arg != 0`. -/
  | reservedFinishArg (arg : BitVec 21)
  /-- RESERVED.OP4_7 (R73): bit 23 set; `x` is bits 22:0. -/
  | reservedOp4to7 (x : BitVec 23)
  /-- PAD (R107). -/
  | pad
  /-- LOADW (R111). -/
  | loadw
  /-- RNDQ0 (R113): round `k`. -/
  | rndq0 (k : BitVec 4)
  /-- RNDQ1 (R114): round `16 + k`. -/
  | rndq1 (k : BitVec 4)
  /-- RNDQ2 (R115): round `32 + k`. -/
  | rndq2 (k : BitVec 4)
  /-- RNDQ3 (R116): round `48 + k`. -/
  | rndq3 (k : BitVec 4)
  /-- FOLD (R120). -/
  | fold
  /-- SER (R130). -/
  | ser
  deriving DecidableEq, Repr

/-- The values of `ustep` that are ever held (R74): the kinds of micro-operation. -/
inductive MicroStep where
  | pad
  | loadw
  | rnd
  | fold
  | ser
  deriving DecidableEq, Repr, Inhabited

/-- A code of one of the two code spaces: a 24-bit command word (R70) or a 9-bit micro-step code (R74). -/
inductive CodeWord where
  | cmd (w : BitVec 24)
  | useq (w : BitVec 9)
  deriving DecidableEq, Repr

end Sys2Proof
end

