-- ==== Sys2Proof/Config.lean ====
section
/-! DEFINITION. What an implementation fixes (the capacity of the padded buffer, R8) and the free values: constants with no
body, so that nothing can be proved of what they are. -/

namespace Sys2Proof

/-- R8: `PB_CAP` is unbounded or a multiple of 64, at least 64. `blocks k` stands for `64 * (k + 1)` bytes. -/
inductive Capacity where
  | unbounded
  | blocks (k : Nat)
  deriving DecidableEq, Repr

/-- Free value: word register number `slot` at draw number `n`. -/
opaque Config.freeWord (n slot : Nat) : Word

/-- Free value: the byte of `PB` at address `addr` after draw number `n`. -/
opaque Config.freeByte (n addr : Nat) : Byte

/-- Free value: `DIGEST[j]` after draw number `n`. A constant of its own, so that nothing relates it to `PB` (R39, R52). -/
opaque Config.freeDigest (n j : Nat) : Byte

/-- Free value: natural-number register number `slot` at draw number `n`. -/
opaque Config.freeCount (n slot : Nat) : Nat

/-- Free value: `ustep` at draw number `n`. -/
opaque Config.freeStep (n : Nat) : MicroStep

/-- Free value: the round index `i` at draw number `n`. -/
opaque Config.freeRound (n : Nat) : BitVec 6

end Sys2Proof
end

