-- ==== Sys2Proof/Machine/State.lean ====
section
/-! DEFINITION. The state of the engine and of its ports as plain data (10_state.md), the stops of the model, and the state
after reset (R39, R180). -/

namespace Sys2Proof.Machine

/-- R26: the five values `phase` takes; codes 5 to 7 are never held. -/
inductive Phase where
  /-- After reset: only START is legal. -/
  | uninit
  /-- A call is open: PUTC, FINISH and START are legal. -/
  | absorb
  /-- The sequencer is running micro-operations; no command is accepted. -/
  | busy
  /-- `DIGEST` holds the digest of the call. -/
  | done
  /-- A fault ended the call. -/
  | fault
  deriving DecidableEq, Repr

/-- R32, R161: the five values the `fault` register takes. -/
inductive FaultCause where
  /-- 0 NONE. -/
  | noFault
  /-- 1 ALLOC: the message would no longer fit in `PB`. -/
  | alloc
  /-- 2 BAD_SCALAR: the operand of PUTC is no scalar value. -/
  | badScalar
  /-- 3 PROTOCOL: the command is not legal in this phase. -/
  | protocol
  /-- 4 ILLEGAL_CMD: a reserved command word. -/
  | illegalCmd
  deriving DecidableEq, Repr

/-- R136, R146: what the host can do at the ports. `yield` and `wait` say when it does nothing. -/
inductive HostMove where
  /-- Present a word on `CMD`: accepted at once when `phase` is not BUSY, else it waits there (R137). -/
  | issue (word : BitVec 24)
  /-- Read the `STATUS` port (R141). -/
  | readStatus
  /-- Read byte `j` of the `DIGEST` port (R142). -/
  | readDigest (j : BitVec 4)
  /-- Assert `rst` (R180). -/
  | reset
  /-- Let the engine take one step of its own. -/
  | yield
  /-- R82's WAIT: let the engine step until `STATUS.READY` is 1. -/
  | wait
  deriving DecidableEq, Repr

/-- What a port read gave the host (R141, R142). -/
inductive PortRead where
  | status (value : Byte)
  | digest (j : BitVec 4) (value : Byte)
  deriving DecidableEq, Repr

/-- Where the model stops because the engine has no such step. The engine's own faults (R161) are NEXT states. -/
inductive Fault where
  /-- Raised by the meaning of a micro-operation at a sequencer position that does not enable it (R27: the step is never
  enabled, so the machine is stuck). Never raised by `step`. Safe. -/
  | notEnabled
  /-- Raised by PAD and LOADW for an access at or above `PB_CAP`, an address that does not exist (R51). Never raised from a
  state that meets the invariant. Safe. -/
  | outsideBuffer
  deriving DecidableEq, Repr

/-- Where the spec gives a step no meaning. -/
inductive Refusal where
  /-- Raised by `exec` for an instruction that has no meaning yet. Safe. -/
  | notModelled (mnemonic : String)
  /-- Raised by a host read of `DIGEST` while `phase` is not DONE: "the model refuses it" (R143). Safe. -/
  | digestNotValid
  deriving DecidableEq, Repr

/-- Everything 10_state.md gives the engine, the word waiting at `CMD` (R137), the two ends of the host's side, and the
model's own counters for free values. -/
structure State where
  /-- The parameter `PB_CAP` (R8); no step writes it. -/
  cap : Capacity
  /-- R25, R26. -/
  phase : Phase
  /-- R25, R74: the kind of the next micro-operation. -/
  ustep : MicroStep
  /-- R25: the block the next micro-operation works on. -/
  blk : Nat
  /-- R25: the round index. -/
  i : BitVec 6
  /-- R20: the accumulator. -/
  h : Vector Word 4
  /-- R22: the working variables. -/
  a : Word
  b : Word
  c : Word
  d : Word
  /-- R23: the message schedule. -/
  w : Vector Word 16
  /-- R37, R51: the bytes of the padded buffer that hold a value, by rising address. -/
  pb : List Host.Cell
  /-- The draw that the free value of an unlisted byte of `PB` comes from. -/
  pbDraw : Nat
  /-- R28: message bytes received. -/
  len : Nat
  /-- R29: blocks of the padded buffer. -/
  nblk : Nat
  /-- R32. -/
  fault : FaultCause
  /-- R33: the output file. -/
  digest : Vector Byte 16
  /-- R137: the word that waits at the `CMD` port. -/
  cmd : Option (BitVec 24)
  /-- R146: the host's coming moves, the next one first. -/
  host : List HostMove
  /-- R141, R142: what the ports have given the host, newest first. -/
  reads : List PortRead
  /-- The number of the next draw of free values. -/
  draws : Nat
  deriving DecidableEq, Repr

/-- What a step or a meaning answers. -/
abbrev Result := Host.Outcome State Fault Refusal

/-- R39, R180: the engine right after reset. Where R39 says "unspecified" the value is the model's (DESIGN CHOICE, assumption
log entry 5): zero, and PAD for `ustep`. Draw 0 is that of the unlisted bytes of `PB`, so the next draw is 1 (DESIGN CHOICE,
entries 6 and 7). -/
def State.reset : State where
  cap := .unbounded
  phase := .uninit
  ustep := .pad
  blk := 0
  i := 0#6
  h := #v[0#32, 0#32, 0#32, 0#32]
  a := 0#32
  b := 0#32
  c := 0#32
  d := 0#32
  w := #v[0#32, 0#32, 0#32, 0#32, 0#32, 0#32, 0#32, 0#32, 0#32, 0#32, 0#32, 0#32, 0#32, 0#32, 0#32, 0#32]
  pb := []
  pbDraw := 0
  len := 0
  nblk := 0
  fault := .noFault
  digest := #v[0#8, 0#8, 0#8, 0#8, 0#8, 0#8, 0#8, 0#8, 0#8, 0#8, 0#8, 0#8, 0#8, 0#8, 0#8, 0#8]
  cmd := none
  host := []
  reads := []
  draws := 1

end Sys2Proof.Machine
end

