-- ==== Sys2Proof/Machine/Flags.lean ====
section
/-! DEFINITION. The engine has no arithmetic flags (10_state.md R30). Its only status bits are those of STATUS, a view of
`phase` and `fault` (R31). -/

namespace Sys2Proof.Machine

/-- R26: the code of each phase. -/
def Phase.code : Phase → BitVec 3
  | .uninit => 0#3
  | .absorb => 1#3
  | .busy => 2#3
  | .done => 3#3
  | .fault => 4#3

/-- R161: the code of each cause. -/
def FaultCause.code : FaultCause → BitVec 3
  | .noFault => 0#3
  | .alloc => 1#3
  | .badScalar => 2#3
  | .protocol => 3#3
  | .illegalCmd => 4#3

/-- R31 bit 6: a command would be accepted now. -/
def State.ready (s : State) : Bool := s.phase != .busy

/-- R31 bit 7: `DIGEST` may be read. -/
def State.valid (s : State) : Bool := s.phase == .done

/-- R31: the 8-bit STATUS, `{VALID, READY, CAUSE, PHASE}`. -/
def State.status (s : State) : Byte :=
  BitVec.ofBool s.valid ++ BitVec.ofBool s.ready ++ s.fault.code ++ s.phase.code

end Sys2Proof.Machine
end

