-- ==== Sys2Proof/WellFormed.lean ====
section
/-! DEFINITION. Which terms of Instr stand for a row of the opcode table: the `constraint` column (30_encoding.md R73, R77). -/

namespace Sys2Proof

/-- The surrogate code points `0xD800 .. 0xDFFF`. -/
def isSurrogate (cp : BitVec 21) : Bool :=
  decide (0xD800 ≤ cp.toNat) && decide (cp.toNat ≤ 0xDFFF)

/-- A Unicode scalar value: `0 .. 0xD7FF` or `0xE000 .. 0x10FFFF` (00_scope.md glossary, R96). -/
def isScalar (cp : BitVec 21) : Bool :=
  decide (cp.toNat ≤ 0x10FFFF) && !isSurrogate cp

/-- The operand range of each row (R73, R77); rows without a constraint admit every operand. -/
def Instr.wellFormed : Instr → Bool
  | .start => true
  | .putcEnc1 cp => decide (cp.toNat ≤ 0x7F)
  | .putcEnc2 cp => decide (0x80 ≤ cp.toNat) && decide (cp.toNat ≤ 0x7FF)
  | .putcEnc3 cp => decide (0x800 ≤ cp.toNat) && decide (cp.toNat ≤ 0xFFFF) && !isSurrogate cp
  | .putcEnc4 cp => decide (0x10000 ≤ cp.toNat) && decide (cp.toNat ≤ 0x10FFFF)
  | .putcBad cp => !isScalar cp
  | .finish => true
  | .reservedOp0 _ => true
  | .reservedStartArg arg => arg != 0#21
  | .reservedFinishArg arg => arg != 0#21
  | .reservedOp4to7 _ => true
  | .pad => true
  | .loadw => true
  | .rndq0 _ => true
  | .rndq1 _ => true
  | .rndq2 _ => true
  | .rndq3 _ => true
  | .fold => true
  | .ser => true

end Sys2Proof
end

