-- ==== Sys2Proof/Decode.lean ====
section
/-! DEFINITION. Decoding of the two code spaces (30_encoding.md R70 to R75), then the encoder, then the opcode table as data. -/

namespace Sys2Proof

/-! ### Command words -/

/-- R70: bits 23:21. -/
def opField (w : BitVec 24) : BitVec 3 := w.extractLsb' 21 3

/-- R70: bits 20:0. -/
def argField (w : BitVec 24) : BitVec 21 := w.extractLsb' 0 21

/-- R77: the row of a PUTC word is chosen by the range of its operand. -/
def decodePutc (cp : BitVec 21) : Instr :=
  if isScalar cp = false then .putcBad cp
  else if cp.toNat ≤ 0x7F then .putcEnc1 cp
  else if cp.toNat ≤ 0x7FF then .putcEnc2 cp
  else if cp.toNat ≤ 0xFFFF then .putcEnc3 cp
  else .putcEnc4 cp

/-- R71, R73: every 24-bit word is one row. -/
def decodeCommand (w : BitVec 24) : Instr :=
  match (opField w).toNat with
  | 0 => .reservedOp0 (argField w)
  | 1 => if argField w = 0#21 then .start else .reservedStartArg (argField w)
  | 2 => decodePutc (argField w)
  | 3 => if argField w = 0#21 then .finish else .reservedFinishArg (argField w)
  | _ => .reservedOp4to7 (w.extractLsb' 0 23)

/-! ### Micro-step codes -/

/-- R75: the micro-operation of round `i`, chosen by the quarter `i[5:4]`. -/
def roundOp (i : BitVec 6) : Instr :=
  match (i.extractLsb' 4 2).toNat with
  | 0 => .rndq0 (i.extractLsb' 0 4)
  | 1 => .rndq1 (i.extractLsb' 0 4)
  | 2 => .rndq2 (i.extractLsb' 0 4)
  | _ => .rndq3 (i.extractLsb' 0 4)

/-- R27, R74: the micro-operation at sequencer position `(ustep, i)`; `i` is read in the rounds only. -/
def microOp (u : MicroStep) (i : BitVec 6) : Instr :=
  match u with
  | .pad => .pad
  | .loadw => .loadw
  | .rnd => roundOp i
  | .fold => .fold
  | .ser => .ser

/-- R74: the `ustep` codes. -/
def MicroStep.code : MicroStep → BitVec 3
  | .pad => 0#3
  | .loadw => 1#3
  | .rnd => 2#3
  | .fold => 3#3
  | .ser => 4#3

/-- R74: codes 5 to 7 are never held. -/
def MicroStep.ofCode (c : BitVec 3) : Option MicroStep :=
  match c.toNat with
  | 0 => some .pad
  | 1 => some .loadw
  | 2 => some .rnd
  | 3 => some .fold
  | 4 => some .ser
  | _ => none

/-- R74: bits 8:6 of a micro-step code. -/
def ustepField (w : BitVec 9) : BitVec 3 := w.extractLsb' 6 3

/-- R74: bits 5:0 of a micro-step code. -/
def roundField (w : BitVec 9) : BitVec 6 := w.extractLsb' 0 6

/-- Why a micro-step code is no row of the table (R74). -/
inductive DecodeError where
  /-- `ustep` is 5, 6 or 7. -/
  | noSuchMicroStep
  /-- The `i` field of PAD, LOADW, FOLD or SER is not 0, the one value the table shows. -/
  | roundFieldNotZero
  deriving DecidableEq, Repr

/-- R74: the sequencer position a micro-step code names. -/
def decodePosition (w : BitVec 9) : Except DecodeError (MicroStep × BitVec 6) :=
  match MicroStep.ofCode (ustepField w) with
  | none => .error .noSuchMicroStep
  | some .rnd => .ok (.rnd, roundField w)
  | some u => if roundField w = 0#6 then .ok (u, 0#6) else .error .roundFieldNotZero

/-- R74: the micro-operation a micro-step code names. -/
def decodeMicro (w : BitVec 9) : Except DecodeError Instr :=
  match decodePosition w with
  | .error e => .error e
  | .ok (u, i) => .ok (microOp u i)

/-- The decoder of both code spaces. -/
def decode : CodeWord → Except DecodeError Instr
  | .cmd w => .ok (decodeCommand w)
  | .useq w => decodeMicro w

/-! ### The encoder -/

/-- R70: `{op, arg}`. -/
def commandWord (op : BitVec 3) (arg : BitVec 21) : BitVec 24 := op ++ arg

/-- R74: `{ustep, i}`. -/
def microWord (u : MicroStep) (i : BitVec 6) : BitVec 9 := u.code ++ i

/-- R75: the round index with quarter `q` and low bits `k`. -/
def roundIndex (q : BitVec 2) (k : BitVec 4) : BitVec 6 := q ++ k

/-- R71, R74: the code of each row. -/
def encode : Instr → CodeWord
  | .start => .cmd (commandWord 1#3 0#21)
  | .putcEnc1 cp => .cmd (commandWord 2#3 cp)
  | .putcEnc2 cp => .cmd (commandWord 2#3 cp)
  | .putcEnc3 cp => .cmd (commandWord 2#3 cp)
  | .putcEnc4 cp => .cmd (commandWord 2#3 cp)
  | .putcBad cp => .cmd (commandWord 2#3 cp)
  | .finish => .cmd (commandWord 3#3 0#21)
  | .reservedOp0 x => .cmd (commandWord 0#3 x)
  | .reservedStartArg arg => .cmd (commandWord 1#3 arg)
  | .reservedFinishArg arg => .cmd (commandWord 3#3 arg)
  | .reservedOp4to7 x => .cmd (1#1 ++ x)
  | .pad => .useq (microWord .pad 0#6)
  | .loadw => .useq (microWord .loadw 0#6)
  | .rndq0 k => .useq (microWord .rnd (roundIndex 0#2 k))
  | .rndq1 k => .useq (microWord .rnd (roundIndex 1#2 k))
  | .rndq2 k => .useq (microWord .rnd (roundIndex 2#2 k))
  | .rndq3 k => .useq (microWord .rnd (roundIndex 3#2 k))
  | .fold => .useq (microWord .fold 0#6)
  | .ser => .useq (microWord .ser 0#6)

/-! ### The words the host asks about -/

/-- The code that `nbits` bits `w` of an opcode-table row stand for: 24 bits are a command word; 9 bits, or the 16 that hold
them in whole bytes, are a micro-step code; anything else is no code of this engine. -/
def tableCode (nbits w : Nat) : Option CodeWord :=
  if nbits ≤ 16 then
    if w < 2 ^ 9 then some (.useq (BitVec.ofNat 9 w)) else none
  else if nbits ≤ 24 then
    if w < 2 ^ 24 then some (.cmd (BitVec.ofNat 24 w)) else none
  else none

/-- What the decoder reads from the bits of an opcode-table row. -/
def decodeTableWord (nbits w : Nat) : Option Instr :=
  match tableCode nbits w with
  | none => none
  | some c => (decode c).toOption

/-! ### The opcode table as data -/

/-- One row of opcode_table.json: `match`, `mask` and the `constraint` on the operand field. -/
structure OpcodeRow (n : Nat) where
  value : BitVec n
  mask : BitVec n
  allowed : BitVec n → Bool

/-- A word falls under a row when the masked bits match and the constraint holds (R73). -/
def OpcodeRow.covers {n : Nat} (r : OpcodeRow n) (w : BitVec n) : Bool :=
  (w &&& r.mask) == r.value && r.allowed w

/-- The operand of a PUTC word as a number (R72). -/
def cpOf (w : BitVec 24) : Nat := (argField w).toNat

/-- The eleven command rows, in the table's order. -/
def commandRows : List (OpcodeRow 24) := [
  ⟨0x200000#24, 0xffffff#24, fun _ => true⟩,
  ⟨0x400000#24, 0xffff80#24, fun w => decide (cpOf w ≤ 0x7F)⟩,
  ⟨0x400000#24, 0xfff800#24, fun w => decide (0x80 ≤ cpOf w ∧ cpOf w ≤ 0x7FF)⟩,
  ⟨0x400000#24, 0xff0000#24, fun w => decide (0x800 ≤ cpOf w ∧ cpOf w ≤ 0xD7FF ∨ 0xE000 ≤ cpOf w ∧ cpOf w ≤ 0xFFFF)⟩,
  ⟨0x400000#24, 0xe00000#24, fun w => decide (0x10000 ≤ cpOf w ∧ cpOf w ≤ 0x10FFFF)⟩,
  ⟨0x400000#24, 0xe00000#24, fun w => decide (0xD800 ≤ cpOf w ∧ cpOf w ≤ 0xDFFF ∨ 0x110000 ≤ cpOf w ∧ cpOf w ≤ 0x1FFFFF)⟩,
  ⟨0x600000#24, 0xffffff#24, fun _ => true⟩,
  ⟨0x000000#24, 0xe00000#24, fun _ => true⟩,
  ⟨0x200000#24, 0xe00000#24, fun w => argField w != 0#21⟩,
  ⟨0x600000#24, 0xe00000#24, fun w => argField w != 0#21⟩,
  ⟨0x800000#24, 0x800000#24, fun _ => true⟩]

/-- The eight micro-operation rows, in the table's order. -/
def microRows : List (OpcodeRow 9) := [
  ⟨0x000#9, 0x1ff#9, fun _ => true⟩,
  ⟨0x040#9, 0x1ff#9, fun _ => true⟩,
  ⟨0x080#9, 0x1f0#9, fun _ => true⟩,
  ⟨0x090#9, 0x1f0#9, fun _ => true⟩,
  ⟨0x0a0#9, 0x1f0#9, fun _ => true⟩,
  ⟨0x0b0#9, 0x1f0#9, fun _ => true⟩,
  ⟨0x0c0#9, 0x1ff#9, fun _ => true⟩,
  ⟨0x100#9, 0x1ff#9, fun _ => true⟩]

/-- The position of a command in `commandRows`; none for a micro-operation. -/
def Instr.commandRow : Instr → Option Nat
  | .start => some 0
  | .putcEnc1 _ => some 1
  | .putcEnc2 _ => some 2
  | .putcEnc3 _ => some 3
  | .putcEnc4 _ => some 4
  | .putcBad _ => some 5
  | .finish => some 6
  | .reservedOp0 _ => some 7
  | .reservedStartArg _ => some 8
  | .reservedFinishArg _ => some 9
  | .reservedOp4to7 _ => some 10
  | .pad | .loadw | .rndq0 _ | .rndq1 _ | .rndq2 _ | .rndq3 _ | .fold | .ser => none

/-- The position of a micro-operation in `microRows`; none for a command. -/
def Instr.microRow : Instr → Option Nat
  | .pad => some 0
  | .loadw => some 1
  | .rndq0 _ => some 2
  | .rndq1 _ => some 3
  | .rndq2 _ => some 4
  | .rndq3 _ => some 5
  | .fold => some 6
  | .ser => some 7
  | .start | .putcEnc1 _ | .putcEnc2 _ | .putcEnc3 _ | .putcEnc4 _ | .putcBad _ | .finish => none
  | .reservedOp0 _ | .reservedStartArg _ | .reservedFinishArg _ | .reservedOp4to7 _ => none

end Sys2Proof
end

