-- ==== Sys2Proof/Machine/Operands.lean ====
section
/-! DEFINITION. The operand forms: byte order (20_memory.md R53, R54), the UTF-8 forms of a scalar value (30_encoding.md R77,
40_encoder.md R92 to R95), the padding sizes (41_padder.md R104, R105), and the datapath of a round (00_scope.md R13,
42_block_compressor.md R112 to R116). -/

namespace Sys2Proof.Machine

/-! ### Byte order -/

/-- Byte `k` of a word: `v[8k+7:8k]` (00_scope.md section 6). -/
def wordByte (v : Word) (k : Nat) : Byte := v.extractLsb' (8 * k) 8

/-- R54: the four bytes of a word, lowest address first. -/
def wordBytes (v : Word) : List Byte := [wordByte v 0, wordByte v 1, wordByte v 2, wordByte v 3]

/-- R53: the word whose byte at the lowest address is `b0`. -/
def wordOfBytes (b0 b1 b2 b3 : Byte) : Word := b3 ++ b2 ++ b1 ++ b0

/-! ### UTF-8 -/

/-- A continuation byte `0x80 + cp[lo+5:lo]` (R77). -/
def continuation (cp : BitVec 21) (lo : Nat) : Byte := 0x80#8 + (cp.extractLsb' lo 6).setWidth 8

/-- R92. -/
def utf8One (cp : BitVec 21) : List Byte := [(cp.extractLsb' 0 7).setWidth 8]

/-- R93. -/
def utf8Two (cp : BitVec 21) : List Byte :=
  [0xC0#8 + (cp.extractLsb' 6 5).setWidth 8, continuation cp 0]

/-- R94. -/
def utf8Three (cp : BitVec 21) : List Byte :=
  [0xE0#8 + (cp.extractLsb' 12 4).setWidth 8, continuation cp 6, continuation cp 0]

/-- R95. -/
def utf8Four (cp : BitVec 21) : List Byte :=
  [0xF0#8 + (cp.extractLsb' 18 3).setWidth 8, continuation cp 12, continuation cp 6, continuation cp 0]

/-! ### Padding sizes -/

/-- R105: the number of zero bytes `Z`. -/
def zeroBytes (l : Nat) : Nat := (119 - l % 64) % 64

/-- R105: the padded length `P`. -/
def paddedLength (l : Nat) : Nat := l + 1 + zeroBytes l + 8

/-- R104: the bit length modulo 2^64. -/
def bitLength (l : Nat) : BitVec 64 := BitVec.ofNat 64 (8 * l)

/-- R78: the low word of the trailer. -/
def trailerLow (l : Nat) : Word := (bitLength l).extractLsb' 0 32

/-- R78: the high word of the trailer. -/
def trailerHigh (l : Nat) : Word := (bitLength l).extractLsb' 32 32

/-! ### The round datapath -/

/-- R13: left rotation, the amount taken modulo 32. -/
def rotl32 (x : Word) (n : Nat) : Word := x.rotateLeft (n % 32)

/-- R113: the mixing function of rounds 0 to 15. -/
def mix0 (b c d : Word) : Word := (b &&& c) ||| (not32 b &&& d)

/-- R114: the mixing function of rounds 16 to 31. -/
def mix1 (b c d : Word) : Word := (d &&& b) ||| (not32 d &&& c)

/-- R115: the mixing function of rounds 32 to 47. -/
def mix2 (b c d : Word) : Word := b ^^^ c ^^^ d

/-- R116: the mixing function of rounds 48 to 63. -/
def mix3 (b c d : Word) : Word := c ^^^ (b ||| not32 d)

/-- A schedule index is taken modulo 16 (R76). -/
def indexMod16 (n : Nat) : Fin 16 := ⟨n % 16, Nat.mod_lt n (by decide)⟩

/-- R113: `g` of rounds 0 to 15. -/
def index0 (i : BitVec 6) : Fin 16 := indexMod16 i.toNat

/-- R114: `g` of rounds 16 to 31. -/
def index1 (i : BitVec 6) : Fin 16 := indexMod16 (5 * i.toNat + 1)

/-- R115: `g` of rounds 32 to 47. -/
def index2 (i : BitVec 6) : Fin 16 := indexMod16 (3 * i.toNat + 5)

/-- R116: `g` of rounds 48 to 63. -/
def index3 (i : BitVec 6) : Fin 16 := indexMod16 (7 * i.toNat)

/-- R112: the new `b`, from the old `a`, `b`, the mixing value `f`, the round `i` and the schedule word `x`. -/
def roundResult (a b f : Word) (i : BitVec 6) (x : Word) : Word :=
  add32 b (rotl32 (add32 (add32 (add32 f a) (roundConstant i)) x) (rotationAmount i))

end Sys2Proof.Machine
end

