-- ==== Sys2Proof/Machine/Ops.lean ====
section
/-! DEFINITION. The shared operations: the padded buffer (20_memory.md), the capacity test (44_host_interface.md R139), fault
entry and reset (60_exceptions.md R167, 70_reset_and_hazards.md R180), acceptance of a command (R137, R169), the enabling of a
micro-operation (10_state.md R27), the port reads (R141, R142). -/

namespace Sys2Proof.Machine

/-! ### The padded buffer as a list of cells -/

/-- The byte an address holds, if it holds one. -/
def cellAt : List Host.Cell → Nat → Option Byte
  | [], _ => none
  | (k, v) :: rest, addr => if addr = k then some v else cellAt rest addr

/-- Store a byte, keeping the addresses strictly rising. -/
def putCell : List Host.Cell → Nat → Byte → List Host.Cell
  | [], addr, x => [(addr, x)]
  | (k, v) :: rest, addr, x =>
    if addr < k then (addr, x) :: (k, v) :: rest
    else if addr = k then (addr, x) :: rest
    else (k, v) :: putCell rest addr x

/-- Store consecutive bytes, the first at `addr`. -/
def putCells : List Host.Cell → Nat → List Byte → List Host.Cell
  | cells, _, [] => cells
  | cells, addr, x :: xs => putCells (putCell cells addr x) (addr + 1) xs

/-- Every listed address is at least `lo` and the addresses are strictly rising. -/
def risingFrom : Nat → List Host.Cell → Bool
  | _, [] => true
  | lo, (k, _) :: rest => decide (lo ≤ k) && risingFrom (k + 1) rest

/-- The canonical form: addresses strictly rising. An unlisted address holds no value, which no entry can equal. -/
def Memory.wf (cells : List Host.Cell) : Bool := risingFrom 0 cells

/-! ### Accesses (R53, R54) -/

/-- `MemRead(PB, addr, 1)`. A byte that holds no value reads as a free value (assumption log entry 6). -/
def memRead1 (s : State) (addr : Nat) : Byte := (cellAt s.pb addr).getD (Config.freeByte s.pbDraw addr)

/-- R53: `MemRead(PB, addr, 4)`. -/
def memRead4 (s : State) (addr : Nat) : Word :=
  wordOfBytes (memRead1 s addr) (memRead1 s (addr + 1)) (memRead1 s (addr + 2)) (memRead1 s (addr + 3))

/-- One-byte writes at `addr`, `addr + 1`, ... -/
def memWriteBytes (s : State) (addr : Nat) (bytes : List Byte) : State := { s with pb := putCells s.pb addr bytes }

/-- R54: `MemWrite(PB, addr, 1, v)`. -/
def memWrite1 (s : State) (addr : Nat) (v : Byte) : State := memWriteBytes s addr [v]

/-- R54: `MemWrite(PB, addr, 4, v)`. -/
def memWrite4 (s : State) (addr : Nat) (v : Word) : State := memWriteBytes s addr (wordBytes v)

/-- R8, R51: `n` bytes, addresses `0 .. n-1`, lie inside the buffer. -/
def capacityFits (cap : Capacity) (n : Nat) : Bool :=
  match cap with
  | .unbounded => true
  | .blocks k => decide (n ≤ 64 * (k + 1))

/-- An operation on addresses below `n`: an address at or above `PB_CAP` does not exist (R51). -/
def withinBuffer (n : Nat) (s : State) (next : State) : Result :=
  if capacityFits s.cap n then .next next else .fault .outsideBuffer

/-! ### Free values -/

/-- The sixteen digest bytes of draw number `n`, one free value each. -/
def unspecifiedDigest (n : Nat) : Vector Byte 16 :=
  #v[Config.freeDigest n 0, Config.freeDigest n 1, Config.freeDigest n 2, Config.freeDigest n 3,
    Config.freeDigest n 4, Config.freeDigest n 5, Config.freeDigest n 6, Config.freeDigest n 7,
    Config.freeDigest n 8, Config.freeDigest n 9, Config.freeDigest n 10, Config.freeDigest n 11,
    Config.freeDigest n 12, Config.freeDigest n 13, Config.freeDigest n 14, Config.freeDigest n 15]

/-- Everything R167 and R39 call unspecified takes a free value: `h`, `a` to `d`, `w`, `PB`, `len`, `nblk`, `ustep`, `blk`, `i`,
`DIGEST`. Every register and byte has a free value of its own, related to no other of the same draw or of an earlier one (DESIGN
CHOICE, assumption log entry 7). -/
def forgetCall (s : State) : State :=
  let n := s.draws
  { s with
    ustep := Config.freeStep n
    blk := Config.freeCount n 0
    i := Config.freeRound n
    h := #v[Config.freeWord n 0, Config.freeWord n 1, Config.freeWord n 2, Config.freeWord n 3]
    a := Config.freeWord n 4
    b := Config.freeWord n 5
    c := Config.freeWord n 6
    d := Config.freeWord n 7
    w := #v[Config.freeWord n 8, Config.freeWord n 9, Config.freeWord n 10, Config.freeWord n 11,
      Config.freeWord n 12, Config.freeWord n 13, Config.freeWord n 14, Config.freeWord n 15,
      Config.freeWord n 16, Config.freeWord n 17, Config.freeWord n 18, Config.freeWord n 19,
      Config.freeWord n 20, Config.freeWord n 21, Config.freeWord n 22, Config.freeWord n 23]
    pb := []
    pbDraw := n
    len := Config.freeCount n 1
    nblk := Config.freeCount n 2
    digest := unspecifiedDigest n
    draws := n + 1 }

/-- R33, R138: the digest bytes become unspecified. -/
def forgetDigest (s : State) : State :=
  let n := s.draws
  { s with
    digest := unspecifiedDigest n
    draws := n + 1 }

/-! ### The sequencer (R25, R27) -/

/-- `seq <- (BUSY, u, n, r)`, every component named. -/
def seqTo (u : MicroStep) (n : Nat) (r : BitVec 6) (s : State) : State :=
  { s with phase := .busy, ustep := u, blk := n, i := r }

/-- `seq <- (BUSY, u, n, -)`: the dash is a free value. -/
def seqToBlock (u : MicroStep) (n : Nat) (s : State) : State :=
  { seqTo u n (Config.freeRound s.draws) s with draws := s.draws + 1 }

/-- `seq <- (BUSY, u, -, -)`: the dashes are free values. -/
def seqToStage (u : MicroStep) (s : State) : State := seqToBlock u (Config.freeCount s.draws 0) s

/-- R27: a micro-operation of kind `u` happens where the sequencer enables it; elsewhere there is no such step. -/
def enabledAt (u : MicroStep) (s : State) (next : Result) : Result :=
  if s.phase = .busy ∧ s.ustep = u then next else .fault .notEnabled

/-! ### Fault entry and reset -/

/-- R167: `fault <- cause; phase <- FAULT`, and from then on the call's state is unspecified. -/
def raiseFault (cause : FaultCause) (s : State) : State :=
  { forgetCall s with fault := cause, phase := .fault }

/-- R180: `phase <- UNINIT; fault <- NONE`, everything else of R39 unspecified, a waiting command word dropped. -/
def resetEngine (s : State) : State :=
  { forgetCall s with fault := .noFault, phase := .uninit, cmd := none }

/-! ### Acceptance of a command (R137, R166, R169) -/

/-- R137: in BUSY the word waits at the port; it is neither executed nor lost nor faulted, and no second word fits. -/
def holdWord (code : CodeWord) (s : State) : State :=
  match code, s.cmd with
  | .cmd w, none => { s with cmd := some w }
  | .cmd _, some _ => s
  | .useq _, _ => s

/-- R137, R169: a command other than START waits in BUSY and is ignored in FAULT. -/
def command (code : CodeWord) (s : State) (accepted : Result) : Result :=
  match s.phase with
  | .busy => .next (holdWord code s)
  | .fault => .next s
  | .uninit | .absorb | .done => accepted

/-- R164, R166: PUTC and FINISH outside ABSORB are PROTOCOL faults. -/
def inAbsorb (s : State) (accepted : Result) : Result :=
  if s.phase = .absorb then accepted else .next (raiseFault .protocol s)

/-- R139: append the bytes of one character, or raise ALLOC with no byte written. -/
def appendBytes (bytes : List Byte) (s : State) : State :=
  if capacityFits s.cap (s.len + bytes.length + 9) then
    { memWriteBytes s s.len bytes with len := s.len + bytes.length }
  else raiseFault .alloc s

/-! ### The round (R112) -/

/-- R112: the parallel write `(a, b, c, d) <- (d, nb, b, c)` of round `r` with mixing value `f` and schedule index `g`. -/
def roundWrite (f : Word) (g : Fin 16) (r : BitVec 6) (s : State) : State :=
  { s with
    a := s.d
    b := roundResult s.a s.b f r s.w[g]
    c := s.b
    d := s.c }

/-- R113 to R116: round `r` is enabled when `i = r`; `next` is the sequencer's move. -/
def roundOf (f : Word) (g : Fin 16) (r : BitVec 6) (s : State) (next : State → State) : Result :=
  enabledAt .rnd s (if s.i = r then .next (next (roundWrite f g r s)) else .fault .notEnabled)

/-! ### Port reads -/

/-- R141: a STATUS read. -/
def readStatus (s : State) : State := { s with reads := .status s.status :: s.reads }

/-- R142, R143: a DIGEST read. -/
def readDigest (j : BitVec 4) (s : State) : Result :=
  if s.phase = .done then .next { s with reads := .digest j (s.digest[j.toNat]'j.isLt) :: s.reads }
  else .refused .digestNotValid

end Sys2Proof.Machine
end

