-- ==== Sys2Proof/Machine/Compressor.lean ====
section
/-! DEFINITION. The micro-operations LOADW, RNDQ0 to RNDQ3 and FOLD (42_block_compressor.md R111 to R116, R120). -/

namespace Sys2Proof.Machine

/-- R111: word `j` of block `blk`. -/
def blockWord (s : State) (j : Nat) : Word := memRead4 s (64 * s.blk + 4 * j)

/-- R111: the register writes of LOADW. -/
def loadBlock (s : State) : State :=
  { s with
    w := #v[blockWord s 0, blockWord s 1, blockWord s 2, blockWord s 3,
      blockWord s 4, blockWord s 5, blockWord s 6, blockWord s 7,
      blockWord s 8, blockWord s 9, blockWord s 10, blockWord s 11,
      blockWord s 12, blockWord s 13, blockWord s 14, blockWord s 15]
    a := s.h[0]
    b := s.h[1]
    c := s.h[2]
    d := s.h[3] }

/-- R111. -/
def execLoadw (s : State) : Result :=
  enabledAt .loadw s (withinBuffer (64 * s.blk + 64) s (seqTo .rnd s.blk 0#6 (loadBlock s)))

/-- R113: rounds 0 to 15. -/
def execRndq0 (k : BitVec 4) (s : State) : Result :=
  let r := roundIndex 0#2 k
  roundOf (mix0 s.b s.c s.d) (index0 r) r s (seqTo .rnd s.blk (r + 1#6))

/-- R114: rounds 16 to 31. -/
def execRndq1 (k : BitVec 4) (s : State) : Result :=
  let r := roundIndex 1#2 k
  roundOf (mix1 s.b s.c s.d) (index1 r) r s (seqTo .rnd s.blk (r + 1#6))

/-- R115: rounds 32 to 47. -/
def execRndq2 (k : BitVec 4) (s : State) : Result :=
  let r := roundIndex 2#2 k
  roundOf (mix2 s.b s.c s.d) (index2 r) r s (seqTo .rnd s.blk (r + 1#6))

/-- R116: rounds 48 to 63; after round 63 the sequencer goes to FOLD. -/
def execRndq3 (k : BitVec 4) (s : State) : Result :=
  let r := roundIndex 3#2 k
  roundOf (mix3 s.b s.c s.d) (index3 r) r s
    (fun t => if r.toNat < 63 then seqTo .rnd s.blk (r + 1#6) t else seqToBlock .fold s.blk t)

/-- R120: the accumulator after FOLD. -/
def foldAccumulator (s : State) : State :=
  { s with h := #v[add32 s.h[0] s.a, add32 s.h[1] s.b, add32 s.h[2] s.c, add32 s.h[3] s.d] }

/-- R120. -/
def execFold (s : State) : Result :=
  enabledAt .fold s
    (.next (if s.blk + 1 < s.nblk then seqToBlock .loadw (s.blk + 1) (foldAccumulator s)
      else seqToStage .ser (foldAccumulator s)))

end Sys2Proof.Machine
end

