-- ==== Sys2Proof/Machine/Encoder.lean ====
section
/-! DEFINITION. The five rows of PUTC (44_host_interface.md R139, 40_encoder.md R92 to R96). -/

namespace Sys2Proof.Machine

/-- R92, R139. -/
def execPutcEnc1 (cp : BitVec 21) (s : State) : Result :=
  command (encode (.putcEnc1 cp)) s (inAbsorb s (.next (appendBytes (utf8One cp) s)))

/-- R93, R139. -/
def execPutcEnc2 (cp : BitVec 21) (s : State) : Result :=
  command (encode (.putcEnc2 cp)) s (inAbsorb s (.next (appendBytes (utf8Two cp) s)))

/-- R94, R139. -/
def execPutcEnc3 (cp : BitVec 21) (s : State) : Result :=
  command (encode (.putcEnc3 cp)) s (inAbsorb s (.next (appendBytes (utf8Three cp) s)))

/-- R95, R139. -/
def execPutcEnc4 (cp : BitVec 21) (s : State) : Result :=
  command (encode (.putcEnc4 cp)) s (inAbsorb s (.next (appendBytes (utf8Four cp) s)))

/-- R96, R139: BAD_SCALAR in ABSORB, before any byte is written. -/
def execPutcBad (cp : BitVec 21) (s : State) : Result :=
  command (encode (.putcBad cp)) s (inAbsorb s (.next (raiseFault .badScalar s)))

end Sys2Proof.Machine
end

