-- ==== Sys2Proof/Machine/HostInterface.lean ====
section
/-! DEFINITION. START and FINISH (44_host_interface.md R138, R140). -/

namespace Sys2Proof.Machine

/-- R138: the writes of START. In DONE it makes the previous digest unspecified. The registers that R25 and A12 leave unspecified
until PAD and LOADW (`ustep`, `blk`, `i`, `a` to `d`, `w`, `nblk`) keep what they held: DESIGN CHOICE, assumption log entry 23. -/
def startCall (s : State) : State :=
  let s' := if s.phase = .done then forgetDigest s else s
  { s' with h := initialAccumulator, len := 0, fault := .noFault, phase := .absorb }

/-- START is accepted in every phase but BUSY (R137, R138). -/
def execStart (s : State) : Result :=
  match s.phase with
  | .busy => .next (holdWord (encode .start) s)
  | .uninit | .absorb | .done | .fault => .next (startCall s)

/-- R140. -/
def execFinish (s : State) : Result :=
  command (encode .finish) s (inAbsorb s (.next (seqToStage .pad s)))

end Sys2Proof.Machine
end

