-- ==== Sys2Proof/Machine/Padder.lean ====
section
/-! DEFINITION. The micro-operation PAD (41_padder.md R107). -/

namespace Sys2Proof.Machine

/-- R107: the buffer writes of PAD, in the order of the pseudocode. -/
def padBuffer (s : State) : State :=
  let l := s.len
  let p := paddedLength l
  let s1 := memWrite1 s l 0x80#8
  let s2 := memWriteBytes s1 (l + 1) (List.replicate (zeroBytes l) 0x00#8)
  let s3 := memWrite4 s2 (p - 8) (trailerLow l)
  memWrite4 s3 (p - 4) (trailerHigh l)

/-- R107. -/
def execPad (s : State) : Result :=
  enabledAt .pad s
    (withinBuffer (paddedLength s.len) s
      (seqToBlock .loadw 0 { padBuffer s with nblk := paddedLength s.len / 64 }))

end Sys2Proof.Machine
end

