-- ==== Sys2Proof/Machine/Reserved.lean ====
section
/-! DEFINITION. The reserved command words (30_encoding.md R73, 60_exceptions.md R165): ILLEGAL_CMD in UNINIT, ABSORB and DONE,
ignored in FAULT, held in BUSY. -/

namespace Sys2Proof.Machine

/-- R73: `op = 0`. -/
def execReservedOp0 (x : BitVec 21) (s : State) : Result :=
  command (encode (.reservedOp0 x)) s (.next (raiseFault .illegalCmd s))

/-- R73: `op = 1` with a non-zero `arg`. -/
def execReservedStartArg (arg : BitVec 21) (s : State) : Result :=
  command (encode (.reservedStartArg arg)) s (.next (raiseFault .illegalCmd s))

/-- R73: `op = 3` with a non-zero `arg`. -/
def execReservedFinishArg (arg : BitVec 21) (s : State) : Result :=
  command (encode (.reservedFinishArg arg)) s (.next (raiseFault .illegalCmd s))

/-- R73: `op` is 4 to 7. -/
def execReservedOp4to7 (x : BitVec 23) (s : State) : Result :=
  command (encode (.reservedOp4to7 x)) s (.next (raiseFault .illegalCmd s))

end Sys2Proof.Machine
end

