-- ==== Sys2Proof/Machine/Serializer.lean ====
section
/-! DEFINITION. The micro-operation SER (43_serializer.md R130). -/

namespace Sys2Proof.Machine

/-- R80, R130: byte `m` of word `k` is digest byte `4k + m`. -/
def serialize (h : Vector Word 4) : Vector Byte 16 :=
  #v[wordByte h[0] 0, wordByte h[0] 1, wordByte h[0] 2, wordByte h[0] 3,
    wordByte h[1] 0, wordByte h[1] 1, wordByte h[1] 2, wordByte h[1] 3,
    wordByte h[2] 0, wordByte h[2] 1, wordByte h[2] 2, wordByte h[2] 3,
    wordByte h[3] 0, wordByte h[3] 1, wordByte h[3] 2, wordByte h[3] 3]

/-- R130. -/
def execSer (s : State) : Result :=
  enabledAt .ser s (.next { s with digest := serialize s.h, phase := .done })

end Sys2Proof.Machine
end

