-- ==== Sys2Proof/Machine/Dispatch.lean ====
section
/-! DEFINITION. The meaning of every instruction, one arm each. -/

namespace Sys2Proof.Machine

def exec (i : Instr) (s : State) : Host.Outcome State Fault Refusal :=
  match i with
  | .start => Sys2Proof.Machine.execStart s
  | .putcEnc1 cp => Sys2Proof.Machine.execPutcEnc1 cp s
  | .putcEnc2 cp => Sys2Proof.Machine.execPutcEnc2 cp s
  | .putcEnc3 cp => Sys2Proof.Machine.execPutcEnc3 cp s
  | .putcEnc4 cp => Sys2Proof.Machine.execPutcEnc4 cp s
  | .putcBad cp => Sys2Proof.Machine.execPutcBad cp s
  | .finish => Sys2Proof.Machine.execFinish s
  | .reservedOp0 x => Sys2Proof.Machine.execReservedOp0 x s
  | .reservedStartArg arg => Sys2Proof.Machine.execReservedStartArg arg s
  | .reservedFinishArg arg => Sys2Proof.Machine.execReservedFinishArg arg s
  | .reservedOp4to7 x => Sys2Proof.Machine.execReservedOp4to7 x s
  | .pad => Sys2Proof.Machine.execPad s
  | .loadw => Sys2Proof.Machine.execLoadw s
  | .rndq0 k => Sys2Proof.Machine.execRndq0 k s
  | .rndq1 k => Sys2Proof.Machine.execRndq1 k s
  | .rndq2 k => Sys2Proof.Machine.execRndq2 k s
  | .rndq3 k => Sys2Proof.Machine.execRndq3 k s
  | .fold => Sys2Proof.Machine.execFold s
  | .ser => Sys2Proof.Machine.execSer s

end Sys2Proof.Machine
end

