-- ==== Sys2Proof/Machine/Fetch.lean ====
section
/-! DEFINITION. What happens next: the host's next move, or the engine's next instruction (10_state.md R27,
44_host_interface.md R137, R146). The step only calls this. -/

namespace Sys2Proof.Machine

/-- The next event: an instruction runs at a state, or a host move is answered. -/
inductive Event where
  | run (i : Instr) (s : State)
  | answer (r : Result)
  deriving Repr

/-- The engine's own next step: in BUSY the micro-operation its sequencer names (R27); otherwise the word that waits at `CMD`
is accepted (R137); with none it is idle and keeps its state (R173). -/
def engineEvent (s : State) : Event :=
  if s.phase = .busy then .run (microOp s.ustep s.i) s
  else
    match s.cmd with
    | some w => .run (decodeCommand w) { s with cmd := none }
    | none => .answer (.next s)

/-- R136, R146: the host's next move decides who steps. A word issued while another waits at the port cannot be presented
yet, so the engine steps. -/
def nextEvent (s : State) : Event :=
  match s.host with
  | [] => engineEvent s
  | .issue w :: rest =>
    match s.cmd with
    | none => .run (decodeCommand w) { s with host := rest }
    | some _ => engineEvent s
  | .readStatus :: rest => .answer (.next (readStatus { s with host := rest }))
  | .readDigest j :: rest => .answer (readDigest j { s with host := rest })
  | .reset :: rest => .answer (.next (resetEngine { s with host := rest }))
  | .yield :: rest => engineEvent { s with host := rest }
  | .wait :: rest => if s.phase = .busy then engineEvent s else .answer (.next { s with host := rest })

/-- Put a command word where the next step takes it: the host's next move issues it, at a free port. -/
def placeCommand (w : BitVec 24) (s : State) : State := { s with host := .issue w :: s.host, cmd := none }

/-- Put the sequencer at a position, with the engine to move. -/
def placeMicro (u : MicroStep) (r : BitVec 6) (s : State) : State :=
  { s with host := .yield :: s.host, phase := .busy, ustep := u, i := r }

/-- Put a code where the next step takes it; a micro-step code that is no row leaves the state as it is. -/
def placeCode (c : CodeWord) (s : State) : State :=
  match c with
  | .cmd w => placeCommand w s
  | .useq w =>
    match decodePosition w with
    | .ok (u, r) => placeMicro u r s
    | .error _ => s

end Sys2Proof.Machine
end

