-- ==== Sys2Proof/Machine/Step.lean ====
section
/-! DEFINITION. One step of the machine (00_scope.md R16). -/

namespace Sys2Proof.Machine

/-- R16: one accepted command, one port read, one reset or one micro-operation. -/
def step (s : State) : Host.Outcome State Fault Refusal :=
  match nextEvent s with
  | .run i t => exec i t
  | .answer r => r

/-- `s` with the instruction of an opcode-table row placed where the next step takes it. -/
def State.withFetchWord (s : State) (nbits w : Nat) : State :=
  match tableCode nbits w with
  | some c => placeCode c s
  | none => s

end Sys2Proof.Machine
end

