-- ==== Sys2Proof/Machine/Digest.lean ====
section
/-! DEFINITION. The function the engine computes, with no state machine: `digest(s) = Ser(Compress(Pad(Enc(s))))`
(44_host_interface.md R135). Statements about whole calls compare the machine with it; no step uses it. -/

namespace Sys2Proof.Machine

/-- R77, R97: the bytes of one scalar value. An operand that is none has no bytes in the spec (R96 and 91_not_in_source.md N6);
that this total function gives a surrogate 3 bytes and a value above `0x10FFFF` 4 is the model's choice (DESIGN CHOICE,
assumption log entry 24). No step uses it. -/
def utf8 (cp : BitVec 21) : List Byte :=
  if cp.toNat ≤ 0x7F then utf8One cp
  else if cp.toNat ≤ 0x7FF then utf8Two cp
  else if cp.toNat ≤ 0xFFFF then utf8Three cp
  else utf8Four cp

/-- R97: the message, the concatenation of the characters' bytes, where every character is a scalar value (entry 24). -/
def message (cps : List (BitVec 21)) : List Byte := cps.flatMap utf8

/-- R101 to R104: the padded message. -/
def padded (m : List Byte) : List Byte :=
  m ++ [0x80#8] ++ List.replicate (zeroBytes m.length) 0x00#8
    ++ wordBytes (trailerLow m.length) ++ wordBytes (trailerHigh m.length)

/-- R79: word `j` of block `n` of a byte string. A byte past its end counts as 0 (DESIGN CHOICE, entry 24). -/
def scheduleWord (p : List Byte) (n j : Nat) : Word :=
  let at4 := 64 * n + 4 * j
  wordOfBytes (p.getD at4 0#8) (p.getD (at4 + 1) 0#8) (p.getD (at4 + 2) 0#8) (p.getD (at4 + 3) 0#8)

/-- R79: the message schedule of block `n`. -/
def schedule (p : List Byte) (n : Nat) : Vector Word 16 :=
  #v[scheduleWord p n 0, scheduleWord p n 1, scheduleWord p n 2, scheduleWord p n 3,
    scheduleWord p n 4, scheduleWord p n 5, scheduleWord p n 6, scheduleWord p n 7,
    scheduleWord p n 8, scheduleWord p n 9, scheduleWord p n 10, scheduleWord p n 11,
    scheduleWord p n 12, scheduleWord p n 13, scheduleWord p n 14, scheduleWord p n 15]

/-- R75: the mixing function of round `r`. -/
def mixOf (r : BitVec 6) (b c d : Word) : Word :=
  if r.toNat < 16 then mix0 b c d
  else if r.toNat < 32 then mix1 b c d
  else if r.toNat < 48 then mix2 b c d
  else mix3 b c d

/-- R75: the schedule index of round `r`. -/
def scheduleIndex (r : BitVec 6) : Fin 16 :=
  if r.toNat < 16 then index0 r
  else if r.toNat < 32 then index1 r
  else if r.toNat < 48 then index2 r
  else index3 r

/-- The four working variables (R22). -/
structure Work where
  a : Word
  b : Word
  c : Word
  d : Word
  deriving DecidableEq, Repr

/-- R112: one round on the working variables. -/
def Work.round (w : Vector Word 16) (r : BitVec 6) (x : Work) : Work :=
  ⟨x.d, roundResult x.a x.b (mixOf r x.b x.c x.d) r w[scheduleIndex r], x.b, x.c⟩

/-- R121: rounds `0 .. n-1`. -/
def Work.rounds (w : Vector Word 16) : Nat → Work → Work
  | 0, x => x
  | n + 1, x => Work.round w (BitVec.ofNat 6 n) (Work.rounds w n x)

/-- R121: the effect of one block on the accumulator. -/
def compress (h : Vector Word 4) (w : Vector Word 16) : Vector Word 4 :=
  let x := Work.rounds w 64 ⟨h[0], h[1], h[2], h[3]⟩
  #v[add32 h[0] x.a, add32 h[1] x.b, add32 h[2] x.c, add32 h[3] x.d]

/-- R121: the accumulator after the first `n` blocks of a padded message. -/
def accumulatorAfter (p : List Byte) : Nat → Vector Word 4
  | 0 => initialAccumulator
  | n + 1 => compress (accumulatorAfter p n) (schedule p n)

/-- R135: the digest of a string of scalar values. -/
def digestOf (cps : List (BitVec 21)) : Vector Byte 16 :=
  let p := padded (message cps)
  serialize (accumulatorAfter p (p.length / 64))

end Sys2Proof.Machine
end

