-- ==== Sys2Proof/Safety.lean ====
section
/-! DEFINITION. Runs of several steps, and the invariant that every state of a run from reset meets (10_state.md R20, R28, R29,
R32, R40; 41_padder.md R107; 42_block_compressor.md R111). -/

namespace Sys2Proof.Machine

/-- `n` steps, stopping at the first stop. -/
def stepN : Nat → State → Result
  | 0, s => .next s
  | n + 1, s =>
    match step s with
    | .next t => stepN n t
    | .fault r => .fault r
    | .refused r => .refused r

/-- Every address below `n` of the padded buffer holds a byte that was written. -/
def written (s : State) (n : Nat) : Prop := ∀ addr, addr < n → (cellAt s.pb addr).isSome = true

/-- Byte `k` of the bit length of a message of `l` bytes (R78, R104). -/
def lengthByte (l k : Nat) : Byte := BitVec.ofNat 8 (8 * l % 2 ^ 64 / 2 ^ (8 * k))

/-- The last eight bytes of `n` blocks are the bit length of a message of `l` bytes. -/
def endsInLength (cells : List Host.Cell) (n l : Nat) : Prop :=
  ∀ k, k < 8 → cellAt cells (64 * n - 8 + k) = some (lengthByte l k)

/-- The open call before padding: the accumulator is the initial one, the message is in the buffer, and there is room for the
padding (R20, R28, R40, R139). -/
structure State.MessageInv (s : State) : Prop where
  initial : s.h = initialAccumulator
  room : capacityFits s.cap (s.len + 9) = true
  message : written s s.len

/-- The padded buffer after PAD (R29, R40, R78, R107). -/
structure State.BlocksInv (s : State) : Prop where
  count : s.nblk = (s.len + 8) / 64 + 1
  room : capacityFits s.cap (64 * s.nblk) = true
  buffer : written s (64 * s.nblk)
  trailer : endsInLength s.pb s.nblk s.len

/-- The invariant of the machine. -/
structure State.Inv (s : State) : Prop where
  /-- `PB` is in canonical form. -/
  canonical : Memory.wf s.pb = true
  /-- R32: `fault` is NONE whenever, and only when, `phase` is not FAULT. -/
  cause : s.phase = .fault ↔ s.fault ≠ .noFault
  absorbing : s.phase = .absorb → s.MessageInv
  padding : s.phase = .busy → s.ustep = .pad → s.MessageInv
  compressing : s.phase = .busy → s.ustep ≠ .pad → s.BlocksInv
  /-- R25: `blk` is below `nblk` where it is read. -/
  block : s.phase = .busy → (s.ustep = .loadw ∨ s.ustep = .rnd ∨ s.ustep = .fold) → s.blk < s.nblk
  /-- R111: in block 0 the accumulator is still the initial one. -/
  firstBlock : s.phase = .busy → (s.ustep = .loadw ∨ s.ustep = .rnd ∨ s.ustep = .fold) → s.blk = 0 → s.h = initialAccumulator

/-! ### Words that statements use -/

/-- R27: the edges of the phase machine. -/
def phaseEdge : Phase → Phase → Bool
  | _, .uninit => true
  | .busy, .absorb => false
  | _, .absorb => true
  | p, .busy => p == .absorb || p == .busy
  | p, .done => p == .busy || p == .done
  | p, .fault => p != .busy

/-- What fault entry leaves that the spec defines (R161, R167): the cause, the phase, and STATUS `0x44 + 8 * cause`. The
capacity, the port and the host's side are not the call's; everything else is unspecified. -/
structure FaultEntered (why : FaultCause) (s t : State) : Prop where
  cause : t.fault = why
  phase : t.phase = .fault
  status : t.status = BitVec.ofNat 8 (0x44 + 8 * why.code.toNat)
  frame : t.cap = s.cap ∧ t.cmd = s.cmd ∧ t.host = s.host ∧ t.reads = s.reads

/-- The phases in which a command word is executed and not ignored (R137, R169). -/
def acceptingPhase (p : Phase) : Prop := p = .uninit ∨ p = .absorb ∨ p = .done

/-- The scalar values a PUTC row of `n` bytes takes (R77). -/
def inForm (n : Nat) (cp : BitVec 21) : Prop :=
  match n with
  | 1 => cp.toNat ≤ 0x7F
  | 2 => 0x80 ≤ cp.toNat ∧ cp.toNat ≤ 0x7FF
  | 3 => (0x800 ≤ cp.toNat ∧ cp.toNat ≤ 0xD7FF) ∨ (0xE000 ≤ cp.toNat ∧ cp.toNat ≤ 0xFFFF)
  | 4 => 0x10000 ≤ cp.toNat ∧ cp.toNat ≤ 0x10FFFF
  | _ => False

/-- R96: an operand that is no scalar value. -/
def notScalar (cp : BitVec 21) : Prop :=
  (0xD800 ≤ cp.toNat ∧ cp.toNat ≤ 0xDFFF) ∨ 0x110000 ≤ cp.toNat

/-- What the host can tell of two answers: the values its reads gave, `phase` and `fault`, or the stop. -/
def SameOutcome : Result → Result → Prop
  | .next t, .next t' => t.reads = t'.reads ∧ t.phase = t'.phase ∧ t.fault = t'.fault
  | .fault r, .fault r' => r = r'
  | .refused r, .refused r' => r = r'
  | .next _, .fault _ | .next _, .refused _ | .fault _, .next _ => False
  | .fault _, .refused _ | .refused _, .next _ | .refused _, .fault _ => False

/-- An answer with more port reads behind it. -/
def withEarlierReads (earlier : List PortRead) : Result → Result
  | .next t => .next { t with reads := t.reads ++ earlier }
  | .fault r => .fault r
  | .refused r => .refused r

end Sys2Proof.Machine
end

