-- ==== Sys2Proof/Certificates/Slice0/Obligations.lean ====
section
/-! DEFINITION. The statements for the provers. Each docstring names the rules of spec/ it formalises; `[n]` is the model's own
choice recorded in the assumption log's entry n. A frame ('everything else unchanged') covers registers and bytes that the spec
calls unspecified at that moment too: that these keep their values is the model's choice [23], not the spec's. -/

open Sys2Proof Sys2Proof.Machine

/-! ### Encoding and fetching -/

/-- R71, R72, R74: words written out from the tables decode to the instructions they stand for. -/
def Obligations.KnownWordsDecode : Prop :=
  decode (.cmd 0x200000#24) = .ok .start ∧ decode (.cmd 0x600000#24) = .ok .finish ∧
  decode (.cmd 0x400061#24) = .ok (.putcEnc1 0x61#21) ∧ decode (.cmd 0x4000e9#24) = .ok (.putcEnc2 0xe9#21) ∧
  decode (.cmd 0x4020ac#24) = .ok (.putcEnc3 0x20ac#21) ∧ decode (.cmd 0x41f600#24) = .ok (.putcEnc4 0x1f600#21) ∧
  decode (.cmd 0x40d800#24) = .ok (.putcBad 0xd800#21) ∧ decode (.cmd 0x510000#24) = .ok (.putcBad 0x110000#21) ∧
  decode (.cmd 0x000000#24) = .ok (.reservedOp0 0#21) ∧ decode (.cmd 0x200001#24) = .ok (.reservedStartArg 1#21) ∧
  decode (.cmd 0x7fffff#24) = .ok (.reservedFinishArg 0x1fffff#21) ∧
  decode (.cmd 0xffffff#24) = .ok (.reservedOp4to7 0x7fffff#23) ∧
  decode (.useq 0b000000000#9) = .ok .pad ∧ decode (.useq 0b001000000#9) = .ok .loadw ∧
  decode (.useq 0b010000101#9) = .ok (.rndq0 5#4) ∧ decode (.useq 0b010010101#9) = .ok (.rndq1 5#4) ∧
  decode (.useq 0b010100101#9) = .ok (.rndq2 5#4) ∧ decode (.useq 0b010111111#9) = .ok (.rndq3 15#4) ∧
  decode (.useq 0b011000000#9) = .ok .fold ∧ decode (.useq 0b100000000#9) = .ok .ser ∧
  decode (.useq 0b101000000#9) = .error .noSuchMicroStep ∧ decode (.useq 0b000000001#9) = .error .roundFieldNotZero

/-- R70 to R77: decoding the code of any well-formed instruction gives it back, with every operand. -/
def Obligations.DecodeOfEncode : Prop := ∀ i : Instr, i.wellFormed = true → decode (encode i) = .ok i

/-- R70 to R77: whatever decodes is well formed and is encoded by the code it came from, so no code has two meanings. -/
def Obligations.EncodeOfDecode : Prop :=
  ∀ (c : CodeWord) (i : Instr), decode c = .ok i → i.wellFormed = true ∧ encode i = c

/-- R73: every 24-bit word falls under exactly one command row, and it is the decoder's row. -/
def Obligations.EveryCommandWordHasOneRow : Prop :=
  ∀ w : BitVec 24, ∃ n, (decodeCommand w).commandRow = some n ∧
    ∀ (m : Nat) (h : m < commandRows.length), commandRows[m].covers w = true ↔ m = n

/-- R27, R74, R75: the micro-operation at a sequencer position is what the decoder reads from that position's code; the round
index selects the quarter. -/
def Obligations.SequencerPositionDecodes : Prop :=
  (∀ (u : MicroStep) (r : BitVec 6), decode (.useq (microWord u (if u = .rnd then r else 0#6))) = .ok (microOp u r)) ∧
  ∀ r : BitVec 6,
    (r.toNat < 16 → microOp .rnd r = .rndq0 (BitVec.ofNat 4 r.toNat)) ∧
    (16 ≤ r.toNat → r.toNat < 32 → microOp .rnd r = .rndq1 (BitVec.ofNat 4 r.toNat)) ∧
    (32 ≤ r.toNat → r.toNat < 48 → microOp .rnd r = .rndq2 (BitVec.ofNat 4 r.toNat)) ∧
    (48 ≤ r.toNat → microOp .rnd r = .rndq3 (BitVec.ofNat 4 r.toNat))

/-- R16, R27, R137: a step runs the decoded instruction. A word the host issues at a free port is decoded and executed; on the
engine's turn the sequencer's micro-operation runs in BUSY, else the waiting word is accepted, else nothing happens. The
host's list of moves is the model's [1], the port's held word is [2], the idle step is [19]. -/
def Obligations.StepRunsDecodedInstruction : Prop :=
  (∀ (s : State) (w : BitVec 24) (rest : List HostMove), s.host = .issue w :: rest → s.cmd = none →
    decode (.cmd w) = .ok (decodeCommand w) ∧ step s = exec (decodeCommand w) { s with host := rest }) ∧
  (∀ s : State, s.phase = .busy → s.host = [] → step s = exec (microOp s.ustep s.i) s) ∧
  (∀ (s : State) (rest : List HostMove), s.phase = .busy → s.host = .yield :: rest →
    step s = exec (microOp s.ustep s.i) { s with host := rest }) ∧
  (∀ (s : State) (rest : List HostMove), s.phase = .busy → s.host = .wait :: rest →
    step s = exec (microOp s.ustep s.i) s) ∧
  (∀ (s : State) (w v : BitVec 24) (rest : List HostMove), s.phase = .busy → s.host = .issue w :: rest → s.cmd = some v →
    step s = exec (microOp s.ustep s.i) s) ∧
  (∀ (s : State) (v : BitVec 24), s.phase ≠ .busy → s.cmd = some v → s.host = [] →
    step s = exec (decodeCommand v) { s with cmd := none }) ∧
  (∀ s : State, s.phase ≠ .busy → s.cmd = none → s.host = [] → step s = .next s)

/-- The host's placement of an opcode-table row: the very next step runs the instruction the decoder reads from it [16]. -/
def Obligations.PlacedWordRunsNext : Prop :=
  (∀ (s : State) (w : Nat) (i : Instr), decodeTableWord 24 w = some i →
    step (s.withFetchWord 24 w) = exec i { s with cmd := none }) ∧
  (∀ (s : State) (w : Nat) (i : Instr), decodeTableWord 16 w = some i →
    ∃ u r, microOp u r = i ∧ step (s.withFetchWord 16 w) = exec i { s with phase := .busy, ustep := u, i := r })

/-! ### Arithmetic, tables, byte order -/

/-- R10: addition modulo 2^32, associative and commutative. -/
def Obligations.AdditionIsModulo32Bits : Prop :=
  ∀ x y z : Word, (add32 x y).toNat = (x.toNat + y.toNat) % 2 ^ 32 ∧ add32 x y = add32 y x ∧
    add32 (add32 x y) z = add32 x (add32 y z)

/-- R13: left rotation by the formula, the amount modulo 32, where each bit goes, and the amounts the engine uses. -/
def Obligations.LeftRotationByFormula : Prop :=
  (∀ (x : Word) (n : Nat),
    (n % 32 = 0 → rotl32 x n = x) ∧
    (n % 32 ≠ 0 → (rotl32 x n).toNat = (x.toNat * 2 ^ (n % 32)) % 2 ^ 32 + x.toNat / 2 ^ (32 - n % 32)) ∧
    rotl32 x n = rotl32 x (n % 32) ∧
    ∀ k, k < 32 → (rotl32 x n).getLsbD ((k + n % 32) % 32) = x.getLsbD k) ∧
  ∀ r : BitVec 6, 4 ≤ rotationAmount r ∧ rotationAmount r ≤ 23

/-- R113 to R116: the four mixing functions, bit by bit: `b` selects `c` or `d`, `d` selects `b` or `c`, parity, and
`c xor (b or not d)`. -/
def Obligations.MixingFunctionsBitByBit : Prop :=
  ∀ (b c d : Word) (k : Nat), k < 32 →
    (mix0 b c d).getLsbD k = (if b.getLsbD k then c.getLsbD k else d.getLsbD k) ∧
    (mix1 b c d).getLsbD k = (if d.getLsbD k then b.getLsbD k else c.getLsbD k) ∧
    (mix2 b c d).getLsbD k = ((b.getLsbD k ^^ c.getLsbD k) ^^ d.getLsbD k) ∧
    (mix3 b c d).getLsbD k = (c.getLsbD k ^^ (b.getLsbD k || !d.getLsbD k))

/-- R76: the schedule index of every round, only its low four bits mattering, and each quarter a permutation of 0 to 15. -/
def Obligations.ScheduleIndexOfEveryRound : Prop :=
  (List.range 64).map (fun n => (scheduleIndex (BitVec.ofNat 6 n)).val) =
    [0, 1, 2, 3, 4, 5, 6, 7, 8, 9, 10, 11, 12, 13, 14, 15] ++ [1, 6, 11, 0, 5, 10, 15, 4, 9, 14, 3, 8, 13, 2, 7, 12] ++
    [5, 8, 11, 14, 1, 4, 7, 10, 13, 0, 3, 6, 9, 12, 15, 2] ++ [0, 7, 14, 5, 12, 3, 10, 1, 8, 15, 6, 13, 4, 11, 2, 9] ∧
  (∀ r r' : BitVec 6, r.toNat % 16 = r'.toNat % 16 →
    index0 r = index0 r' ∧ index1 r = index1 r' ∧ index2 r = index2 r' ∧ index3 r = index3 r') ∧
  ∀ g : Fin 16, ∀ q, q < 4 → ∃ k, k < 16 ∧ scheduleIndex (BitVec.ofNat 6 (16 * q + k)) = g ∧
    ∀ k', k' < 16 → scheduleIndex (BitVec.ofNat 6 (16 * q + k')) = g → k' = k

/-- R117, R118: the transcription checks of the round constants, and the period of the rotation amounts. -/
def Obligations.ConstantTableChecks : Prop :=
  roundConstants.toList.foldl add32 0#32 = 0x27f3a0bc#32 ∧ roundConstants.toList.foldl (· ^^^ ·) 0#32 = 0x10e6cc5a#32 ∧
  roundConstant 0#6 = 0xd76aa478#32 ∧ roundConstant 1#6 = 0xe8c7b756#32 ∧ roundConstant 63#6 = 0xeb86d391#32 ∧
  ∀ r : BitVec 6, rotationAmount r = [7, 12, 17, 22, 5, 9, 14, 20, 4, 11, 16, 23, 6, 10, 15, 21].getD (4 * (r.toNat / 16) + r.toNat % 4) 0

/-- R53, R54: reads and writes of one and four bytes are little-endian, nothing outside the bytes written changes, a word
written is read back, and the serializer uses the same byte order. -/
def Obligations.WordAccessIsLittleEndian : Prop :=
  (∀ (s : State) (addr : Nat) (x : Byte), cellAt s.pb addr = some x → memRead1 s addr = x) ∧
  (∀ (s : State) (addr : Nat), (memRead4 s addr).toNat = (memRead1 s addr).toNat + 2 ^ 8 * (memRead1 s (addr + 1)).toNat +
    2 ^ 16 * (memRead1 s (addr + 2)).toNat + 2 ^ 24 * (memRead1 s (addr + 3)).toNat) ∧
  (∀ (s : State) (addr : Nat) (v : Byte), memRead1 (memWrite1 s addr v) addr = v ∧
    ∀ x, x ≠ addr → memRead1 (memWrite1 s addr v) x = memRead1 s x) ∧
  (∀ (s : State) (addr : Nat) (v : Word),
    (∀ k, k < 4 → memRead1 (memWrite4 s addr v) (addr + k) = BitVec.ofNat 8 (v.toNat / 2 ^ (8 * k))) ∧
    (∀ x, x < addr ∨ addr + 4 ≤ x → memRead1 (memWrite4 s addr v) x = memRead1 s x) ∧
    memRead4 (memWrite4 s addr v) addr = v) ∧
  ∀ (h : Vector Word 4) (k m : Nat) (hk : k < 4) (hm : m < 4),
    (serialize h)[4 * k + m]'(by omega) = BitVec.ofNat 8 ((h[k]'hk).toNat / 2 ^ (8 * m))

/-- R105: the number of zero bytes, the padded length as the least multiple of 64 that leaves 9 bytes, the number of blocks. -/
def Obligations.PaddingSizes : Prop :=
  ∀ l : Nat, zeroBytes l ≤ 63 ∧ (l % 64 ≤ 55 → zeroBytes l = 55 - l % 64) ∧ (55 < l % 64 → zeroBytes l = 119 - l % 64) ∧
    paddedLength l = l + 1 + zeroBytes l + 8 ∧ paddedLength l = 64 * ((l + 8) / 64 + 1) ∧
    l + 9 ≤ paddedLength l ∧ (∀ m, l + 9 ≤ 64 * m → paddedLength l ≤ 64 * m) ∧
    paddedLength l / 64 = (l + 8) / 64 + 1 ∧ 1 ≤ paddedLength l / 64 ∧
    (l % 64 ≤ 55 → paddedLength l / 64 = l / 64 + 1) ∧ (55 < l % 64 → paddedLength l / 64 = l / 64 + 2)

/-- R139: PUTC's capacity test on a message length is the test of its padded length, whatever the capacity. -/
def Obligations.RoomForMessageIsRoomForPadding : Prop :=
  ∀ (cap : Capacity) (l : Nat), capacityFits cap (l + 9) = capacityFits cap (paddedLength l)

/-! ### Commands -/

/-- R138: START in every phase but BUSY: the initial accumulator, an empty message, no fault, ABSORB, STATUS `0x41`, the
previous digest unreadable and unspecified, `PB` not cleared, and a second START leaves the same state. The one word is START,
and no other command clears a fault (ill-formed terms, which no word decodes to, are included by the model's choice [14]).
That `a` to `d`, `w`, `nblk`, `ustep`, `blk` and `i` keep their values is the model's choice [23], not R138's: R25 leaves the sequencer unspecified outside BUSY, and A12 the others before LOADW and PAD. -/
def Obligations.StartOpensCall : Prop :=
  (∀ w : BitVec 24, decodeCommand w = .start ↔ w = 0x200000#24) ∧
  (∀ (i : Instr) (s : State), i.commandRow.isSome = true → i ≠ .start → s.phase = .fault → exec i s = .next s) ∧
  ∀ s : State, s.phase ≠ .busy → ∃ t, exec .start s = .next t ∧
    t.h = #v[0x67452301#32, 0xefcdab89#32, 0x98badcfe#32, 0x10325476#32] ∧ t.len = 0 ∧ t.fault = .noFault ∧
    t.phase = .absorb ∧ t.status = 0x41#8 ∧ (∀ j, readDigest j t = .refused .digestNotValid) ∧
    t = { s with h := t.h, len := 0, fault := .noFault, phase := .absorb, digest := t.digest, draws := t.draws } ∧
    exec .start t = .next t

/-- R92: PUTC of `0x00 .. 0x7F` in ABSORB, with room, appends the one byte; frame [23]. -/
def Obligations.PutcEnc1AppendsOneByte : Prop :=
  ∀ (cp : BitVec 21) (s : State), inForm 1 cp → s.phase = .absorb → capacityFits s.cap (s.len + 1 + 9) = true →
    decodePutc cp = .putcEnc1 cp ∧
    ∃ t, exec (.putcEnc1 cp) s = .next t ∧ memRead1 t s.len = BitVec.ofNat 8 (cp.toNat % 2 ^ 7) ∧
      (∀ x, x ≠ s.len → memRead1 t x = memRead1 s x) ∧ t = { s with pb := t.pb, len := s.len + 1 }

/-- R93: PUTC of `0x80 .. 0x7FF` in ABSORB, with room, appends two bytes; frame [23]. -/
def Obligations.PutcEnc2AppendsTwoBytes : Prop :=
  ∀ (cp : BitVec 21) (s : State), inForm 2 cp → s.phase = .absorb → capacityFits s.cap (s.len + 2 + 9) = true →
    decodePutc cp = .putcEnc2 cp ∧
    ∃ t, exec (.putcEnc2 cp) s = .next t ∧
      memRead1 t s.len = BitVec.ofNat 8 (0xC0 + cp.toNat / 2 ^ 6 % 2 ^ 5) ∧
      memRead1 t (s.len + 1) = BitVec.ofNat 8 (0x80 + cp.toNat % 2 ^ 6) ∧
      (∀ x, x < s.len ∨ s.len + 2 ≤ x → memRead1 t x = memRead1 s x) ∧ t = { s with pb := t.pb, len := s.len + 2 }

/-- R94: PUTC of `0x800 .. 0xD7FF` or `0xE000 .. 0xFFFF` in ABSORB, with room, appends three bytes; frame [23]. -/
def Obligations.PutcEnc3AppendsThreeBytes : Prop :=
  ∀ (cp : BitVec 21) (s : State), inForm 3 cp → s.phase = .absorb → capacityFits s.cap (s.len + 3 + 9) = true →
    decodePutc cp = .putcEnc3 cp ∧
    ∃ t, exec (.putcEnc3 cp) s = .next t ∧
      memRead1 t s.len = BitVec.ofNat 8 (0xE0 + cp.toNat / 2 ^ 12 % 2 ^ 4) ∧
      memRead1 t (s.len + 1) = BitVec.ofNat 8 (0x80 + cp.toNat / 2 ^ 6 % 2 ^ 6) ∧
      memRead1 t (s.len + 2) = BitVec.ofNat 8 (0x80 + cp.toNat % 2 ^ 6) ∧
      (∀ x, x < s.len ∨ s.len + 3 ≤ x → memRead1 t x = memRead1 s x) ∧ t = { s with pb := t.pb, len := s.len + 3 }

/-- R95: PUTC of `0x10000 .. 0x10FFFF` in ABSORB, with room, appends four bytes, the first `0xF0` to `0xF4`; frame
[23]. -/
def Obligations.PutcEnc4AppendsFourBytes : Prop :=
  ∀ (cp : BitVec 21) (s : State), inForm 4 cp → s.phase = .absorb → capacityFits s.cap (s.len + 4 + 9) = true →
    cp.toNat / 2 ^ 18 ≤ 4 ∧
    decodePutc cp = .putcEnc4 cp ∧
    ∃ t, exec (.putcEnc4 cp) s = .next t ∧
      memRead1 t s.len = BitVec.ofNat 8 (0xF0 + cp.toNat / 2 ^ 18 % 2 ^ 3) ∧
      memRead1 t (s.len + 1) = BitVec.ofNat 8 (0x80 + cp.toNat / 2 ^ 12 % 2 ^ 6) ∧
      memRead1 t (s.len + 2) = BitVec.ofNat 8 (0x80 + cp.toNat / 2 ^ 6 % 2 ^ 6) ∧
      memRead1 t (s.len + 3) = BitVec.ofNat 8 (0x80 + cp.toNat % 2 ^ 6) ∧
      (∀ x, x < s.len ∨ s.len + 4 ≤ x → memRead1 t x = memRead1 s x) ∧ t = { s with pb := t.pb, len := s.len + 4 }

/-- R139, R162: a PUTC that would leave no room for the padding raises ALLOC; with an unbounded buffer none does; FINISH never
raises it. -/
def Obligations.OverfullPutcRaisesAlloc : Prop :=
  (∀ (n : Nat) (cp : BitVec 21) (s : State), inForm n cp → s.phase = .absorb → capacityFits s.cap (s.len + n + 9) = false →
    ∃ t, exec (decodePutc cp) s = .next t ∧ FaultEntered .alloc s t) ∧
  (∀ (n : Nat) (cp : BitVec 21) (s : State), inForm n cp → s.phase = .absorb → s.cap = .unbounded →
    ∃ t, exec (decodePutc cp) s = .next t ∧ t.phase = .absorb ∧ t.len = s.len + n) ∧
  ∀ s t : State, exec .finish s = .next t → t.fault = .alloc → s.fault = .alloc

/-- R163: a PUTC whose operand is no scalar value raises BAD_SCALAR in ABSORB, and no other PUTC does. -/
def Obligations.PutcOfNonScalarRaisesBadScalar : Prop :=
  (∀ (cp : BitVec 21) (s : State), notScalar cp → s.phase = .absorb →
    ∃ t, exec (.putcBad cp) s = .next t ∧ FaultEntered .badScalar s t) ∧
  ∀ (cp : BitVec 21), notScalar cp ↔ decodePutc cp = .putcBad cp

/-- R140: FINISH in ABSORB hands the call to the sequencer at PAD and changes nothing else; `blk` and `i`, the dashes of the
rule, take some value [8]. -/
def Obligations.FinishStartsSequencer : Prop :=
  ∀ s : State, s.phase = .absorb → ∃ t, exec .finish s = .next t ∧ t.phase = .busy ∧ t.ustep = .pad ∧
    (s.fault = .noFault → t.status = 0x02#8) ∧
    t = { s with phase := .busy, ustep := .pad, blk := t.blk, i := t.i, draws := t.draws }

/-- R164: PUTC (every row of it) and FINISH in UNINIT or DONE raise PROTOCOL. -/
def Obligations.WrongPhaseRaisesProtocol : Prop :=
  ∀ (s : State), s.phase = .uninit ∨ s.phase = .done →
    (∀ cp : BitVec 21, ∃ t, exec (decodePutc cp) s = .next t ∧ FaultEntered .protocol s t) ∧
    ∃ t, exec .finish s = .next t ∧ FaultEntered .protocol s t

/-- R165: every reserved word raises ILLEGAL_CMD in UNINIT, ABSORB and DONE. Each reserved row does so for every operand its
constructor can hold: the operand 0 of RESERVED.START_ARG and RESERVED.FINISH_ARG, which R73 excludes and no word decodes to, is
included, and that instance is the model's choice [14], not R165's. -/
def Obligations.ReservedWordRaisesIllegalCmd : Prop :=
  ∀ s : State, acceptingPhase s.phase →
    (∀ x, ∃ t, exec (.reservedOp0 x) s = .next t ∧ FaultEntered .illegalCmd s t) ∧
    (∀ arg, ∃ t, exec (.reservedStartArg arg) s = .next t ∧ FaultEntered .illegalCmd s t) ∧
    (∀ arg, ∃ t, exec (.reservedFinishArg arg) s = .next t ∧ FaultEntered .illegalCmd s t) ∧
    (∀ x, ∃ t, exec (.reservedOp4to7 x) s = .next t ∧ FaultEntered .illegalCmd s t) ∧
    ∀ w : BitVec 24, (w.toNat / 2 ^ 21 = 0 ∨ 4 ≤ w.toNat / 2 ^ 21 ∨
        (w.toNat / 2 ^ 21 = 1 ∨ w.toNat / 2 ^ 21 = 3) ∧ w.toNat % 2 ^ 21 ≠ 0) →
      ∃ t, exec (decodeCommand w) s = .next t ∧ FaultEntered .illegalCmd s t

/-- R137: in BUSY every command word waits at a free port, neither executed nor lost nor faulted, and is accepted once BUSY has
ended; STATUS reads and reset are not held. The port's register is the model's [2], the host's list [1]; the first
clause includes ill-formed terms by the model's choice [14]. -/
def Obligations.CommandWaitsInBusy : Prop :=
  (∀ (i : Instr) (s : State), i.commandRow.isSome = true → s.phase = .busy → s.cmd = none →
    ∃ w, encode i = .cmd w ∧ exec i s = .next { s with cmd := some w }) ∧
  (∀ (w : BitVec 24) (s t : State), s.phase = .busy → s.cmd = some w → step s = .next t →
    t.cmd = some w ∨ ∃ rest, s.host = .reset :: rest) ∧
  (∀ (w : BitVec 24) (s : State), s.phase ≠ .busy → s.cmd = some w → s.host = [] →
    step s = exec (decodeCommand w) { s with cmd := none }) ∧
  ∀ (s : State) (rest : List HostMove), (s.host = .readStatus :: rest → step s = .next (readStatus { s with host := rest })) ∧
    (s.host = .reset :: rest → ∃ t, step s = .next t ∧ t.phase = .uninit ∧ t.cmd = none)

/-- R166: a word that meets several fault conditions reports the first of ILLEGAL_CMD, PROTOCOL, BAD_SCALAR, ALLOC. -/
def Obligations.FaultPriority : Prop :=
  ∀ (w : BitVec 24) (s : State), acceptingPhase s.phase →
    let op := w.toNat / 2 ^ 21
    let cp := w.toNat % 2 ^ 21
    let illegal := op = 0 ∨ 4 ≤ op ∨ (op = 1 ∨ op = 3) ∧ cp ≠ 0
    let n := if cp ≤ 0x7F then 1 else if cp ≤ 0x7FF then 2 else if cp ≤ 0xFFFF then 3 else 4
    let noScalar := 0xD800 ≤ cp ∧ cp ≤ 0xDFFF ∨ 0x110000 ≤ cp
    (illegal → ∃ t, exec (decodeCommand w) s = .next t ∧ FaultEntered .illegalCmd s t) ∧
    (¬ illegal → op ≠ 1 → s.phase ≠ .absorb → ∃ t, exec (decodeCommand w) s = .next t ∧ FaultEntered .protocol s t) ∧
    (op = 2 → s.phase = .absorb → noScalar → ∃ t, exec (decodeCommand w) s = .next t ∧ FaultEntered .badScalar s t) ∧
    (op = 2 → s.phase = .absorb → ¬ noScalar → capacityFits s.cap (s.len + n + 9) = false →
      ∃ t, exec (decodeCommand w) s = .next t ∧ FaultEntered .alloc s t) ∧
    (op = 2 → s.phase = .absorb → ¬ noScalar → capacityFits s.cap (s.len + n + 9) = true →
      ∃ t, exec (decodeCommand w) s = .next t ∧ t.phase = .absorb ∧ t.fault = s.fault)

/-- R169: in FAULT every command but a well-formed START is ignored, no state changes; START opens a new call and clears the
fault. Ill-formed terms, which no word decodes to, are included by the model's choice [14]. -/
def Obligations.FaultIgnoresAllButStart : Prop :=
  (∀ (i : Instr) (s : State), i.commandRow.isSome = true → i ≠ .start → s.phase = .fault → exec i s = .next s) ∧
  (∀ s : State, s.phase = .fault → ∃ t, exec .start s = .next t ∧ t.phase = .absorb ∧ t.fault = .noFault ∧ t.len = 0 ∧
    t.h = initialAccumulator) ∧
  ∀ s : State, (resetEngine s).phase = .uninit ∧ (resetEngine s).fault = .noFault

/-! ### Micro-operations -/

/-- R104, R107: PAD where the sequencer enables it and the message left room: the marker, the zero bytes, the bit length modulo
2^64 in little-endian order, `nblk`, the move to LOADW of block 0; every other byte and register unchanged [23]. `i`, the
dash of the rule, takes some value [8]. -/
def Obligations.PadAppendsPadding : Prop :=
  ∀ s : State, s.phase = .busy → s.ustep = .pad → capacityFits s.cap (s.len + 9) = true →
    let z := (119 - s.len % 64) % 64
    let p := s.len + 1 + z + 8
    ∃ t, exec .pad s = .next t ∧
      memRead1 t s.len = 0x80#8 ∧
      (∀ k, 1 ≤ k → k ≤ z → memRead1 t (s.len + k) = 0x00#8) ∧
      (∀ k, k < 8 → memRead1 t (p - 8 + k) = BitVec.ofNat 8 (8 * s.len % 2 ^ 64 / 2 ^ (8 * k))) ∧
      (∀ x, x < s.len ∨ p ≤ x → memRead1 t x = memRead1 s x) ∧
      t = { s with pb := t.pb, nblk := p / 64, ustep := .loadw, blk := 0, i := t.i, draws := t.draws }

/-- R111: LOADW where the sequencer enables it and the block lies in the buffer: the sixteen little-endian words, the working
variables from the accumulator, the move to round 0; everything else unchanged [23]. In states that meet the invariant the block
does lie in the buffer, block 0 starts from the initial constants, and words 14 and 15 of the last block are the bit length. -/
def Obligations.LoadwExpandsBlock : Prop :=
  (∀ s : State, s.phase = .busy → s.ustep = .loadw → capacityFits s.cap (64 * s.blk + 64) = true →
    ∃ t, exec .loadw s = .next t ∧
      (∀ j : Fin 16, (t.w[j]).toNat = (memRead1 s (64 * s.blk + 4 * j)).toNat +
        2 ^ 8 * (memRead1 s (64 * s.blk + 4 * j + 1)).toNat + 2 ^ 16 * (memRead1 s (64 * s.blk + 4 * j + 2)).toNat +
        2 ^ 24 * (memRead1 s (64 * s.blk + 4 * j + 3)).toNat) ∧
      t = { s with w := t.w, a := s.h[0], b := s.h[1], c := s.h[2], d := s.h[3], ustep := .rnd, i := 0#6 }) ∧
  ∀ s : State, s.Inv → s.phase = .busy → s.ustep = .loadw →
    capacityFits s.cap (64 * s.blk + 64) = true ∧ ∃ t, exec .loadw s = .next t ∧
      (s.blk = 0 → t.a = 0x67452301#32 ∧ t.b = 0xefcdab89#32 ∧ t.c = 0x98badcfe#32 ∧ t.d = 0x10325476#32) ∧
      (s.blk + 1 = s.nblk → (t.w[14]).toNat + 2 ^ 32 * (t.w[15]).toNat = 8 * s.len % 2 ^ 64)

/-- R112, R113: RNDQ0 at round `i`, 0 to 15; frame [23]. -/
def Obligations.Rndq0Round : Prop :=
  ∀ (s : State) (i : Nat) (hi : i < 16), s.phase = .busy → s.ustep = .rnd → s.i = BitVec.ofNat 6 i →
    let f := (s.b &&& s.c) ||| (not32 s.b &&& s.d)
    let f' := add32 (add32 (add32 f s.a) (roundConstants[i]'(by omega))) (s.w[i]'hi)
    let nb := add32 s.b (rotl32 f' (rotationAmounts[i]'(by omega)))
    exec (.rndq0 (BitVec.ofNat 4 i)) s = .next { s with a := s.d, b := nb, c := s.b, d := s.c, i := BitVec.ofNat 6 (i + 1) }

/-- R112, R114: RNDQ1 at round `i`, 16 to 31; frame [23]. -/
def Obligations.Rndq1Round : Prop :=
  ∀ (s : State) (i : Nat) (_ : 16 ≤ i) (hi : i < 32), s.phase = .busy → s.ustep = .rnd → s.i = BitVec.ofNat 6 i →
    let f := (s.d &&& s.b) ||| (not32 s.d &&& s.c)
    let f' := add32 (add32 (add32 f s.a) (roundConstants[i]'(by omega))) (s.w[(5 * i + 1) % 16]'(by omega))
    let nb := add32 s.b (rotl32 f' (rotationAmounts[i]'(by omega)))
    exec (.rndq1 (BitVec.ofNat 4 i)) s = .next { s with a := s.d, b := nb, c := s.b, d := s.c, i := BitVec.ofNat 6 (i + 1) }

/-- R112, R115: RNDQ2 at round `i`, 32 to 47; frame [23]. -/
def Obligations.Rndq2Round : Prop :=
  ∀ (s : State) (i : Nat) (_ : 32 ≤ i) (hi : i < 48), s.phase = .busy → s.ustep = .rnd → s.i = BitVec.ofNat 6 i →
    let f := s.b ^^^ s.c ^^^ s.d
    let f' := add32 (add32 (add32 f s.a) (roundConstants[i]'(by omega))) (s.w[(3 * i + 5) % 16]'(by omega))
    let nb := add32 s.b (rotl32 f' (rotationAmounts[i]'(by omega)))
    exec (.rndq2 (BitVec.ofNat 4 i)) s = .next { s with a := s.d, b := nb, c := s.b, d := s.c, i := BitVec.ofNat 6 (i + 1) }

/-- R112, R116: RNDQ3 at round `i`, 48 to 63; after round 63 the sequencer is at FOLD of the same block and `i`, the dash of
the rule, takes some value [8]. -/
def Obligations.Rndq3Round : Prop :=
  ∀ (s : State) (i : Nat) (_ : 48 ≤ i) (hi : i < 64), s.phase = .busy → s.ustep = .rnd → s.i = BitVec.ofNat 6 i →
    let f := s.c ^^^ (s.b ||| not32 s.d)
    let f' := add32 (add32 (add32 f s.a) (roundConstants[i]'hi)) (s.w[7 * i % 16]'(by omega))
    let nb := add32 s.b (rotl32 f' (rotationAmounts[i]'hi))
    (i < 63 → exec (.rndq3 (BitVec.ofNat 4 i)) s =
      .next { s with a := s.d, b := nb, c := s.b, d := s.c, i := BitVec.ofNat 6 (i + 1) }) ∧
    (i = 63 → ∃ t, exec (.rndq3 (BitVec.ofNat 4 i)) s = .next t ∧
      t = { s with a := s.d, b := nb, c := s.b, d := s.c, ustep := .fold, i := t.i, draws := t.draws })

/-- R120: FOLD adds the working variables into the accumulator and goes to the next block, or to SER after the last; the
dashes of the rule take some value [8]; everything else unchanged [23]. -/
def Obligations.FoldAddsWorkingVariables : Prop :=
  ∀ s : State, s.phase = .busy → s.ustep = .fold → ∃ t, exec .fold s = .next t ∧
    t.h = #v[add32 s.h[0] s.a, add32 s.h[1] s.b, add32 s.h[2] s.c, add32 s.h[3] s.d] ∧
    (s.blk + 1 < s.nblk → t = { s with h := t.h, ustep := .loadw, blk := s.blk + 1, i := t.i, draws := t.draws }) ∧
    (s.nblk ≤ s.blk + 1 → t = { s with h := t.h, ustep := .ser, blk := t.blk, i := t.i, draws := t.draws })

/-- R130: SER writes the sixteen digest bytes, word 0 first and each word low byte first, ends the call and leaves the
accumulator. That everything else keeps its value in DONE too is the model's choice [9], not the spec's: R25 and R38 leave `a` to `d`,
`w`, `PB`, `len`, `nblk`, `ustep`, `blk` and `i` unspecified there. -/
def Obligations.SerEmitsDigest : Prop :=
  ∀ s : State, s.phase = .busy → s.ustep = .ser → ∃ t, exec .ser s = .next t ∧
    (∀ (k m : Nat) (hk : k < 4) (hm : m < 4),
      t.digest[4 * k + m]'(by omega) = BitVec.ofNat 8 ((s.h[k]'hk).toNat / 2 ^ (8 * m))) ∧
    t.valid = true ∧ t.ready = true ∧ t = { s with digest := t.digest, phase := .done }

/-- R27: a micro-operation asked for at a position that does not enable it is no step of the engine; the model answers the stop
`notEnabled` [11]. -/
def Obligations.DisabledMicroOpStops : Prop :=
  ∀ (i : Instr) (s : State), i.microRow.isSome = true → ¬ (s.phase = .busy ∧ microOp s.ustep s.i = i) →
    exec i s = .fault .notEnabled

/-! ### Ports, reset, the phase machine -/

/-- R31: the fields of STATUS, its value after reset, and the eight values it takes in states that meet the invariant. -/
def Obligations.StatusFields : Prop :=
  (∀ s : State,
    s.status.toNat % 8 = (match s.phase with | .uninit => 0 | .absorb => 1 | .busy => 2 | .done => 3 | .fault => 4) ∧
    s.status.toNat / 8 % 8 =
      (match s.fault with | .noFault => 0 | .alloc => 1 | .badScalar => 2 | .protocol => 3 | .illegalCmd => 4) ∧
    s.status.toNat / 64 % 2 = (if s.phase = .busy then 0 else 1) ∧
    s.status.toNat / 128 = (if s.phase = .done then 1 else 0)) ∧
  State.reset.status = 0x40#8 ∧
  ∀ s : State, s.Inv → s.status ∈ [0x40#8, 0x41#8, 0x02#8, 0xC3#8, 0x4C#8, 0x54#8, 0x5C#8, 0x64#8]

/-- R141, R142, R143: a STATUS read gives STATUS in every phase; a DIGEST read gives the byte in DONE and has no meaning
elsewhere; neither changes the engine. What the host got is the model's list `reads` [3]; the stop is [12]. -/
def Obligations.PortReadsChangeNothing : Prop :=
  ∀ (s : State) (rest : List HostMove),
    (s.host = .readStatus :: rest → step s = .next { s with host := rest, reads := .status s.status :: s.reads }) ∧
    ∀ j : BitVec 4, s.host = .readDigest j :: rest →
      (s.phase = .done →
        step s = .next { s with host := rest, reads := .digest j (s.digest[j.toNat]'j.isLt) :: s.reads }) ∧
      (s.phase ≠ .done → step s = .refused .digestNotValid)

/-- R180: reset in any phase, BUSY and FAULT among them: UNINIT, no fault, STATUS `0x40`, the waiting word dropped, no digest
readable. Nothing is said of the registers R39 leaves unspecified. -/
def Obligations.ResetInAnyPhase : Prop :=
  ∀ (s : State) (rest : List HostMove), s.host = .reset :: rest → ∃ t, step s = .next t ∧
    t.phase = .uninit ∧ t.fault = .noFault ∧ t.status = 0x40#8 ∧ t.cmd = none ∧ t.cap = s.cap ∧ t.host = rest ∧
    t.reads = s.reads ∧ ∀ j, readDigest j t = .refused .digestNotValid

/-- R39, R180: what the spec fixes of the state after reset. -/
def Obligations.StateAfterReset : Prop :=
  State.reset.phase = .uninit ∧ State.reset.fault = .noFault ∧ State.reset.status = 0x40#8 ∧ State.reset.cmd = none ∧
  State.reset.pb = [] ∧ ∀ j, readDigest j State.reset = .refused .digestNotValid

/-- R27: every step's change of phase is an edge of the phase machine. -/
def Obligations.PhaseFollowsTransitionTable : Prop :=
  ∀ s t : State, step s = .next t → phaseEdge s.phase t.phase = true

/-- R169: a step leaves FAULT only by an accepted START word or by reset, and while it stays the first cause is kept. The
host's list is the model's [1], the port's register [2]. -/
def Obligations.OnlyStartOrResetLeavesFault : Prop :=
  ∀ s t : State, s.phase = .fault → step s = .next t →
    (t.phase = .fault ∧ t.fault = s.fault) ∨
    (t.phase = .absorb ∧ t.fault = .noFault ∧
      ((s.cmd = none ∧ ∃ rest, s.host = .issue 0x200000#24 :: rest) ∨ s.cmd = some 0x200000#24)) ∨
    (t.phase = .uninit ∧ t.fault = .noFault ∧ ∃ rest, s.host = .reset :: rest)

/-- R131: a step ends in DONE only by SER, which writes the digest, or by leaving a readable digest as it was. -/
def Obligations.DigestComesOnlyFromSer : Prop :=
  ∀ s t : State, step s = .next t → t.phase = .done →
    (s.phase = .done ∧ t.digest = s.digest) ∨ (s.phase = .busy ∧ s.ustep = .ser ∧ t.digest = serialize s.h)

/-- R8: no step changes the capacity of the padded buffer. -/
def Obligations.CapacityIsNeverWritten : Prop := ∀ s t : State, step s = .next t → t.cap = s.cap

/-! ### Invariant, safety, isolation -/

/-- R39: the invariant holds right after reset. -/
def Obligations.ResetMeetsInvariant : Prop := State.reset.Inv

/-- R20, R28, R29, R32, R40: from every state that meets the invariant, a step gives a state that meets it: the buffer in
canonical form, `fault` in step with `phase`, the accumulator still initial until the first block has been folded in, room for
the padding, every byte that will be read written, the bit length in its place. -/
def Obligations.StepKeepsInvariant : Prop := ∀ s t : State, s.Inv → step s = .next t → t.Inv

/-- R160: from a state that meets the invariant every step has a next state, but for a DIGEST read outside DONE, which R143
gives no meaning. So no micro-operation faults, no address lies outside the buffer and the sequencer never sticks. -/
def Obligations.NoStepFaults : Prop :=
  ∀ s : State, s.Inv → (∃ t, step s = .next t) ∨
    (step s = .refused .digestNotValid ∧ s.phase ≠ .done ∧ ∃ j rest, s.host = .readDigest j :: rest)

/-- R40: what reset and fault entry leave unspecified never reaches a port. Two machines that differ in every register and byte
of `PB`, but agree on capacity, phase (UNINIT or FAULT), cause, waiting word and the host's moves, give the host the same
reads, phases, causes and stops after any number of steps. -/
def Obligations.UnspecifiedStateIsNeverObserved : Prop :=
  ∀ (k : Nat) (s s' : State), s.cap = s'.cap → s.phase = s'.phase → s.phase = .uninit ∨ s.phase = .fault →
    s.fault = s'.fault → s.cmd = s'.cmd → s.host = s'.host → s.reads = s'.reads → SameOutcome (stepN k s) (stepN k s')

/-- R60, R141: earlier port reads never steer the machine: a step of a machine whose host has read more answers the same, with
those reads behind. The list of reads is the model's [3]. -/
def Obligations.PortReadsNeverSteer : Prop :=
  ∀ (s : State) (earlier : List PortRead),
    step { s with reads := s.reads ++ earlier } = withEarlierReads earlier (step s)

/-! ### Whole blocks and whole calls -/

/-- R110, R121: from LOADW of a block, 66 steps of the engine apply the block function to the accumulator and go on to the
next block or to SER; the buffer is only read. -/
def Obligations.BlockFunctionInSixtySixSteps : Prop :=
  ∀ (s : State) (w : Vector Word 16), s.phase = .busy → s.ustep = .loadw → s.host = [] →
    capacityFits s.cap (64 * s.blk + 64) = true → (∀ j : Fin 16, w[j] = memRead4 s (64 * s.blk + 4 * j)) →
    ∃ t, stepN 66 s = .next t ∧ t.h = compress s.h w ∧ t.phase = .busy ∧
      (s.blk + 1 < s.nblk → t.ustep = .loadw ∧ t.blk = s.blk + 1) ∧ (s.nblk ≤ s.blk + 1 → t.ustep = .ser) ∧
      t.pb = s.pb ∧ t.pbDraw = s.pbDraw ∧ t.len = s.len ∧ t.nblk = s.nblk ∧ t.cap = s.cap ∧ t.fault = s.fault ∧
      t.cmd = s.cmd ∧ t.host = [] ∧ t.reads = s.reads

/-- R190: an accepted FINISH is followed by exactly `66 * nblk + 2` micro-operations, BUSY throughout, and then DONE; none
stops or waits. -/
def Obligations.FinishEndsInDone : Prop :=
  ∀ s u : State, s.Inv → s.phase = .absorb → s.host = [] → exec .finish s = .next u →
    (∀ k, k < 66 * ((s.len + 8) / 64 + 1) + 2 → ∃ t, stepN k u = .next t ∧ t.phase = .busy) ∧
    ∃ t, stepN (66 * ((s.len + 8) / 64 + 1) + 2) u = .next t ∧ t.phase = .done ∧ t.fault = .noFault

/-- R135, R144: from any phase but BUSY, with the port free, START, one PUTC per scalar value and FINISH are accepted, the
sequencer runs `66 * nblk + 2` micro-operations, and `DIGEST` is the digest of the string, whatever the state was before. The
host's list of moves is the model's [1]. -/
def Obligations.WholeCallComputesDigest : Prop :=
  ∀ (s : State) (cps : List (BitVec 21)) (rest : List HostMove), s.phase ≠ .busy → s.cmd = none →
    (∀ cp ∈ cps, isScalar cp = true) → capacityFits s.cap ((message cps).length + 9) = true →
    s.host = .issue 0x200000#24 :: (cps.map (fun cp => HostMove.issue (commandWord 2#3 cp)) ++ .issue 0x600000#24 :: .wait :: rest) →
    ∃ t, stepN (cps.length + 2 + (66 * (((message cps).length + 8) / 64 + 1) + 2)) s = .next t ∧
      t.phase = .done ∧ t.fault = .noFault ∧ t.digest = digestOf cps ∧ t.host = .wait :: rest ∧ t.reads = s.reads ∧
      t.cap = s.cap

/-- R97: two different strings never give the same message bytes. -/
def Obligations.MessageBytesDetermineString : Prop :=
  ∀ xs ys : List (BitVec 21), (∀ cp ∈ xs, isScalar cp = true) → (∀ cp ∈ ys, isScalar cp = true) →
    message xs = message ys → xs = ys

/-- R90: a string of `n` characters gives between `n` and `4n` bytes, and the bytes of a concatenation are concatenated. For
operands that are no scalar value `message` has no meaning in the spec (R96), and what it gives there is the model's choice [24]. -/
def Obligations.MessageLengthBounds : Prop :=
  (∀ cps : List (BitVec 21), cps.length ≤ (message cps).length ∧ (message cps).length ≤ 4 * cps.length) ∧
  ∀ xs ys : List (BitVec 21), message (xs ++ ys) = message xs ++ message ys
end

