-- ==== Sys2Proof/Laws/Decode.lean ====
section
/-! SUPPORT. The fields of the two kinds of code word, read back from the encoder and put together again (30_encoding.md R70, R74). -/

namespace Sys2Proof

/-- The bits of a command word: the operand below bit 21, the operation code above. -/
theorem getLsbD_commandWord (op : BitVec 3) (arg : BitVec 21) (i : Nat) :
    (commandWord op arg).getLsbD i = if i < 21 then arg.getLsbD i else op.getLsbD (i - 21) :=
  BitVec.getLsbD_append

/-- The bits of a micro-step code: the round index below bit 6, `ustep` above. -/
theorem getLsbD_microWord (u : MicroStep) (r : BitVec 6) (i : Nat) :
    (microWord u r).getLsbD i = if i < 6 then r.getLsbD i else u.code.getLsbD (i - 6) :=
  BitVec.getLsbD_append

@[simp] theorem opField_commandWord (op : BitVec 3) (arg : BitVec 21) : opField (commandWord op arg) = op := by
  apply BitVec.eq_of_getLsbD_eq
  intro i hi
  have h : ¬ 21 + i < 21 := by omega
  have h' : 21 + i - 21 = i := by omega
  simp only [opField, BitVec.getLsbD_extractLsb', hi, decide_true, Bool.true_and, getLsbD_commandWord, if_neg h, h']

@[simp] theorem argField_commandWord (op : BitVec 3) (arg : BitVec 21) : argField (commandWord op arg) = arg := by
  apply BitVec.eq_of_getLsbD_eq
  intro i hi
  simp only [argField, BitVec.getLsbD_extractLsb', hi, decide_true, Bool.true_and, Nat.zero_add, getLsbD_commandWord, if_true]

@[simp] theorem cpOf_commandWord (op : BitVec 3) (arg : BitVec 21) : cpOf (commandWord op arg) = arg.toNat := by
  simp [cpOf]

/-- A command word is its two fields. -/
theorem commandWord_fields (w : BitVec 24) : commandWord (opField w) (argField w) = w := by
  apply BitVec.eq_of_getLsbD_eq
  intro i hi
  rw [getLsbD_commandWord]
  split
  · rename_i h
    simp only [argField, BitVec.getLsbD_extractLsb', h, decide_true, Bool.true_and, Nat.zero_add]
  · have h1 : i - 21 < 3 := by omega
    have h2 : 21 + (i - 21) = i := by omega
    simp only [opField, BitVec.getLsbD_extractLsb', h1, decide_true, Bool.true_and, h2]

@[simp] theorem ustepField_microWord (u : MicroStep) (r : BitVec 6) : ustepField (microWord u r) = u.code := by
  apply BitVec.eq_of_getLsbD_eq
  intro i hi
  have h : ¬ 6 + i < 6 := by omega
  have h' : 6 + i - 6 = i := by omega
  simp only [ustepField, BitVec.getLsbD_extractLsb', hi, decide_true, Bool.true_and, getLsbD_microWord, if_neg h, h']

@[simp] theorem roundField_microWord (u : MicroStep) (r : BitVec 6) : roundField (microWord u r) = r := by
  apply BitVec.eq_of_getLsbD_eq
  intro i hi
  simp only [roundField, BitVec.getLsbD_extractLsb', hi, decide_true, Bool.true_and, Nat.zero_add, getLsbD_microWord, if_true]

/-- The code of a kind of micro-operation names that kind. -/
@[simp] theorem ofCode_code (u : MicroStep) : MicroStep.ofCode u.code = some u := by cases u <;> rfl

/-- START is one word. -/
theorem decodeCommand_eq_start {w : BitVec 24} (h : decodeCommand w = .start) : w = 0x200000#24 := by
  unfold decodeCommand at h
  split at h
  · cases h
  · rename_i hop
    by_cases harg : argField w = 0#21
    · rw [← commandWord_fields w, harg, show opField w = 1#3 from BitVec.eq_of_toNat_eq hop]
      rfl
    · simp [harg] at h
  · unfold decodePutc at h
    repeat' (split at h)
    all_goals cases h
  · by_cases harg : argField w = 0#21 <;> simp [harg] at h
  · cases h

end Sys2Proof
end

