-- ==== Sys2Proof/Laws/Memory.lean ====
section
/-! SUPPORT. The laws of the padded buffer: a read after a write, every other address unchanged, and the canonical form kept
(20_memory.md R53, R54, R56). -/

namespace Sys2Proof.Machine

@[simp] theorem cellAt_nil (addr : Nat) : cellAt [] addr = none := rfl

/-- One store is seen at its address and nowhere else. -/
theorem cellAt_putCell (cells : List Host.Cell) (addr x : Nat) (v : Byte) :
    cellAt (putCell cells addr v) x = if x = addr then some v else cellAt cells x := by
  induction cells with
  | nil => simp [putCell, cellAt]
  | cons cell rest ih =>
    obtain ⟨k, u⟩ := cell
    simp only [putCell]
    split
    · simp [cellAt]
    · split
      · subst_vars
        by_cases h : x = k <;> simp [cellAt, h]
      · by_cases h : x = k
        · have : ¬ k = addr := by omega
          simp [cellAt, h, this]
        · simp [cellAt, h, ih]

/-- Consecutive stores: address `addr + n` holds the `n`-th byte, every other address is unchanged. -/
theorem cellAt_putCells (cells : List Host.Cell) (addr x : Nat) (bytes : List Byte) :
    cellAt (putCells cells addr bytes) x =
      if addr ≤ x ∧ x < addr + bytes.length then bytes[x - addr]? else cellAt cells x := by
  induction bytes generalizing cells addr with
  | nil =>
    have h : ¬ (addr ≤ x ∧ x < addr + 0) := by omega
    exact (if_neg h).symm
  | cons b rest ih =>
    simp only [putCells, ih, cellAt_putCell, List.length_cons]
    by_cases h0 : x = addr
    · subst h0
      simp
    · by_cases h1 : addr + 1 ≤ x ∧ x < addr + 1 + rest.length
      · have h2 : addr ≤ x ∧ x < addr + (rest.length + 1) := by omega
        have h3 : x - addr = x - (addr + 1) + 1 := by omega
        simp [h1, h2, h3]
      · have h2 : ¬ (addr ≤ x ∧ x < addr + (rest.length + 1)) := by omega
        rw [if_neg h1, if_neg h0, if_neg h2]

/-- A store keeps the addresses rising from any bound at most its own address. -/
theorem risingFrom_putCell (cells : List Host.Cell) (lo addr : Nat) (v : Byte)
    (h : risingFrom lo cells = true) (hlo : lo ≤ addr) : risingFrom lo (putCell cells addr v) = true := by
  induction cells generalizing lo with
  | nil => simp [putCell, risingFrom, hlo]
  | cons cell rest ih =>
    obtain ⟨k, u⟩ := cell
    simp only [risingFrom, Bool.and_eq_true, decide_eq_true_eq] at h
    simp only [putCell]
    split
    · simp only [risingFrom, Bool.and_eq_true, decide_eq_true_eq]
      exact ⟨hlo, by omega, h.2⟩
    · split
      · subst_vars
        simp [risingFrom, h.1, h.2]
      · simp only [risingFrom, Bool.and_eq_true, decide_eq_true_eq]
        exact ⟨h.1, ih _ h.2 (by omega)⟩

theorem wf_nil : Memory.wf [] = true := rfl

theorem wf_putCell (cells : List Host.Cell) (addr : Nat) (v : Byte) (h : Memory.wf cells = true) :
    Memory.wf (putCell cells addr v) = true :=
  risingFrom_putCell cells 0 addr v h (Nat.zero_le _)

theorem wf_putCells (cells : List Host.Cell) (addr : Nat) (bytes : List Byte) (h : Memory.wf cells = true) :
    Memory.wf (putCells cells addr bytes) = true := by
  induction bytes generalizing cells addr with
  | nil => exact h
  | cons b rest ih => exact ih _ _ (wf_putCell cells addr b h)

/-- Every write to the buffer keeps its canonical form. -/
theorem wf_memWriteBytes (s : State) (addr : Nat) (bytes : List Byte) (h : Memory.wf s.pb = true) :
    Memory.wf (memWriteBytes s addr bytes).pb = true := wf_putCells s.pb addr bytes h

theorem wf_padBuffer (s : State) (h : Memory.wf s.pb = true) : Memory.wf (padBuffer s).pb = true :=
  wf_putCells _ _ _ (wf_putCells _ _ _ (wf_putCells _ _ _ (wf_putCells _ _ _ h)))

theorem wf_reset : Memory.wf State.reset.pb = true := rfl

/-- A read inside the bytes just written gives the byte written there. -/
theorem memRead1_memWriteBytes_inside (s : State) (addr n : Nat) (bytes : List Byte) (h : n < bytes.length) :
    memRead1 (memWriteBytes s addr bytes) (addr + n) = bytes[n] := by
  have h1 : addr ≤ addr + n ∧ addr + n < addr + bytes.length := by omega
  simp [memRead1, memWriteBytes, cellAt_putCells, h]

/-- A read outside the bytes just written gives what it gave before. -/
theorem memRead1_memWriteBytes_outside (s : State) (addr x : Nat) (bytes : List Byte)
    (h : x < addr ∨ addr + bytes.length ≤ x) : memRead1 (memWriteBytes s addr bytes) x = memRead1 s x := by
  have h1 : ¬ (addr ≤ x ∧ x < addr + bytes.length) := by omega
  simp [memRead1, memWriteBytes, cellAt_putCells, h1]

/-- Bytes written stay written, and the bytes of a write are written. -/
theorem isSome_cellAt_putCells (cells : List Host.Cell) (addr x : Nat) (bytes : List Byte)
    (h : (cellAt cells x).isSome = true ∨ addr ≤ x ∧ x < addr + bytes.length) :
    (cellAt (putCells cells addr bytes) x).isSome = true := by
  rw [cellAt_putCells]
  split
  · rename_i hin
    simp only [Option.isSome_iff_exists]
    exact ⟨_, List.getElem?_eq_getElem (by omega)⟩
  · rename_i hout
    exact h.resolve_right hout

end Sys2Proof.Machine
end

