-- ==== Sys2Proof/Laws/State.lean ====
section
/-! SUPPORT. What each named update of State leaves in each field. A field that takes a free value has no lemma: nothing is
known of it. -/

namespace Sys2Proof.Machine

@[simp] theorem forgetCall_cap (s : State) : (forgetCall s).cap = s.cap := rfl
@[simp] theorem forgetCall_phase (s : State) : (forgetCall s).phase = s.phase := rfl
@[simp] theorem forgetCall_pb (s : State) : (forgetCall s).pb = [] := rfl
@[simp] theorem forgetCall_pbDraw (s : State) : (forgetCall s).pbDraw = s.draws := rfl
@[simp] theorem forgetCall_fault (s : State) : (forgetCall s).fault = s.fault := rfl
@[simp] theorem forgetCall_cmd (s : State) : (forgetCall s).cmd = s.cmd := rfl
@[simp] theorem forgetCall_host (s : State) : (forgetCall s).host = s.host := rfl
@[simp] theorem forgetCall_reads (s : State) : (forgetCall s).reads = s.reads := rfl
@[simp] theorem forgetCall_draws (s : State) : (forgetCall s).draws = s.draws + 1 := rfl

@[simp] theorem forgetDigest_cap (s : State) : (forgetDigest s).cap = s.cap := rfl
@[simp] theorem forgetDigest_phase (s : State) : (forgetDigest s).phase = s.phase := rfl
@[simp] theorem forgetDigest_ustep (s : State) : (forgetDigest s).ustep = s.ustep := rfl
@[simp] theorem forgetDigest_blk (s : State) : (forgetDigest s).blk = s.blk := rfl
@[simp] theorem forgetDigest_i (s : State) : (forgetDigest s).i = s.i := rfl
@[simp] theorem forgetDigest_h (s : State) : (forgetDigest s).h = s.h := rfl
@[simp] theorem forgetDigest_a (s : State) : (forgetDigest s).a = s.a := rfl
@[simp] theorem forgetDigest_b (s : State) : (forgetDigest s).b = s.b := rfl
@[simp] theorem forgetDigest_c (s : State) : (forgetDigest s).c = s.c := rfl
@[simp] theorem forgetDigest_d (s : State) : (forgetDigest s).d = s.d := rfl
@[simp] theorem forgetDigest_w (s : State) : (forgetDigest s).w = s.w := rfl
@[simp] theorem forgetDigest_pb (s : State) : (forgetDigest s).pb = s.pb := rfl
@[simp] theorem forgetDigest_pbDraw (s : State) : (forgetDigest s).pbDraw = s.pbDraw := rfl
@[simp] theorem forgetDigest_len (s : State) : (forgetDigest s).len = s.len := rfl
@[simp] theorem forgetDigest_nblk (s : State) : (forgetDigest s).nblk = s.nblk := rfl
@[simp] theorem forgetDigest_fault (s : State) : (forgetDigest s).fault = s.fault := rfl
@[simp] theorem forgetDigest_cmd (s : State) : (forgetDigest s).cmd = s.cmd := rfl
@[simp] theorem forgetDigest_host (s : State) : (forgetDigest s).host = s.host := rfl
@[simp] theorem forgetDigest_reads (s : State) : (forgetDigest s).reads = s.reads := rfl
@[simp] theorem forgetDigest_draws (s : State) : (forgetDigest s).draws = s.draws + 1 := rfl

@[simp] theorem seqTo_cap (u : MicroStep) (n : Nat) (r : BitVec 6) (s : State) : (seqTo u n r s).cap = s.cap := rfl
@[simp] theorem seqTo_phase (u : MicroStep) (n : Nat) (r : BitVec 6) (s : State) : (seqTo u n r s).phase = .busy := rfl
@[simp] theorem seqTo_ustep (u : MicroStep) (n : Nat) (r : BitVec 6) (s : State) : (seqTo u n r s).ustep = u := rfl
@[simp] theorem seqTo_blk (u : MicroStep) (n : Nat) (r : BitVec 6) (s : State) : (seqTo u n r s).blk = n := rfl
@[simp] theorem seqTo_i (u : MicroStep) (n : Nat) (r : BitVec 6) (s : State) : (seqTo u n r s).i = r := rfl
@[simp] theorem seqTo_h (u : MicroStep) (n : Nat) (r : BitVec 6) (s : State) : (seqTo u n r s).h = s.h := rfl
@[simp] theorem seqTo_a (u : MicroStep) (n : Nat) (r : BitVec 6) (s : State) : (seqTo u n r s).a = s.a := rfl
@[simp] theorem seqTo_b (u : MicroStep) (n : Nat) (r : BitVec 6) (s : State) : (seqTo u n r s).b = s.b := rfl
@[simp] theorem seqTo_c (u : MicroStep) (n : Nat) (r : BitVec 6) (s : State) : (seqTo u n r s).c = s.c := rfl
@[simp] theorem seqTo_d (u : MicroStep) (n : Nat) (r : BitVec 6) (s : State) : (seqTo u n r s).d = s.d := rfl
@[simp] theorem seqTo_w (u : MicroStep) (n : Nat) (r : BitVec 6) (s : State) : (seqTo u n r s).w = s.w := rfl
@[simp] theorem seqTo_pb (u : MicroStep) (n : Nat) (r : BitVec 6) (s : State) : (seqTo u n r s).pb = s.pb := rfl
@[simp] theorem seqTo_pbDraw (u : MicroStep) (n : Nat) (r : BitVec 6) (s : State) : (seqTo u n r s).pbDraw = s.pbDraw := rfl
@[simp] theorem seqTo_len (u : MicroStep) (n : Nat) (r : BitVec 6) (s : State) : (seqTo u n r s).len = s.len := rfl
@[simp] theorem seqTo_nblk (u : MicroStep) (n : Nat) (r : BitVec 6) (s : State) : (seqTo u n r s).nblk = s.nblk := rfl
@[simp] theorem seqTo_fault (u : MicroStep) (n : Nat) (r : BitVec 6) (s : State) : (seqTo u n r s).fault = s.fault := rfl
@[simp] theorem seqTo_digest (u : MicroStep) (n : Nat) (r : BitVec 6) (s : State) : (seqTo u n r s).digest = s.digest := rfl
@[simp] theorem seqTo_cmd (u : MicroStep) (n : Nat) (r : BitVec 6) (s : State) : (seqTo u n r s).cmd = s.cmd := rfl
@[simp] theorem seqTo_host (u : MicroStep) (n : Nat) (r : BitVec 6) (s : State) : (seqTo u n r s).host = s.host := rfl
@[simp] theorem seqTo_reads (u : MicroStep) (n : Nat) (r : BitVec 6) (s : State) : (seqTo u n r s).reads = s.reads := rfl
@[simp] theorem seqTo_draws (u : MicroStep) (n : Nat) (r : BitVec 6) (s : State) : (seqTo u n r s).draws = s.draws := rfl

@[simp] theorem seqToBlock_cap (u : MicroStep) (n : Nat) (s : State) : (seqToBlock u n s).cap = s.cap := rfl
@[simp] theorem seqToBlock_phase (u : MicroStep) (n : Nat) (s : State) : (seqToBlock u n s).phase = .busy := rfl
@[simp] theorem seqToBlock_ustep (u : MicroStep) (n : Nat) (s : State) : (seqToBlock u n s).ustep = u := rfl
@[simp] theorem seqToBlock_blk (u : MicroStep) (n : Nat) (s : State) : (seqToBlock u n s).blk = n := rfl
@[simp] theorem seqToBlock_h (u : MicroStep) (n : Nat) (s : State) : (seqToBlock u n s).h = s.h := rfl
@[simp] theorem seqToBlock_a (u : MicroStep) (n : Nat) (s : State) : (seqToBlock u n s).a = s.a := rfl
@[simp] theorem seqToBlock_b (u : MicroStep) (n : Nat) (s : State) : (seqToBlock u n s).b = s.b := rfl
@[simp] theorem seqToBlock_c (u : MicroStep) (n : Nat) (s : State) : (seqToBlock u n s).c = s.c := rfl
@[simp] theorem seqToBlock_d (u : MicroStep) (n : Nat) (s : State) : (seqToBlock u n s).d = s.d := rfl
@[simp] theorem seqToBlock_w (u : MicroStep) (n : Nat) (s : State) : (seqToBlock u n s).w = s.w := rfl
@[simp] theorem seqToBlock_pb (u : MicroStep) (n : Nat) (s : State) : (seqToBlock u n s).pb = s.pb := rfl
@[simp] theorem seqToBlock_pbDraw (u : MicroStep) (n : Nat) (s : State) : (seqToBlock u n s).pbDraw = s.pbDraw := rfl
@[simp] theorem seqToBlock_len (u : MicroStep) (n : Nat) (s : State) : (seqToBlock u n s).len = s.len := rfl
@[simp] theorem seqToBlock_nblk (u : MicroStep) (n : Nat) (s : State) : (seqToBlock u n s).nblk = s.nblk := rfl
@[simp] theorem seqToBlock_fault (u : MicroStep) (n : Nat) (s : State) : (seqToBlock u n s).fault = s.fault := rfl
@[simp] theorem seqToBlock_digest (u : MicroStep) (n : Nat) (s : State) : (seqToBlock u n s).digest = s.digest := rfl
@[simp] theorem seqToBlock_cmd (u : MicroStep) (n : Nat) (s : State) : (seqToBlock u n s).cmd = s.cmd := rfl
@[simp] theorem seqToBlock_host (u : MicroStep) (n : Nat) (s : State) : (seqToBlock u n s).host = s.host := rfl
@[simp] theorem seqToBlock_reads (u : MicroStep) (n : Nat) (s : State) : (seqToBlock u n s).reads = s.reads := rfl
@[simp] theorem seqToBlock_draws (u : MicroStep) (n : Nat) (s : State) : (seqToBlock u n s).draws = s.draws + 1 := rfl

@[simp] theorem seqToStage_cap (u : MicroStep) (s : State) : (seqToStage u s).cap = s.cap := rfl
@[simp] theorem seqToStage_phase (u : MicroStep) (s : State) : (seqToStage u s).phase = .busy := rfl
@[simp] theorem seqToStage_ustep (u : MicroStep) (s : State) : (seqToStage u s).ustep = u := rfl
@[simp] theorem seqToStage_h (u : MicroStep) (s : State) : (seqToStage u s).h = s.h := rfl
@[simp] theorem seqToStage_a (u : MicroStep) (s : State) : (seqToStage u s).a = s.a := rfl
@[simp] theorem seqToStage_b (u : MicroStep) (s : State) : (seqToStage u s).b = s.b := rfl
@[simp] theorem seqToStage_c (u : MicroStep) (s : State) : (seqToStage u s).c = s.c := rfl
@[simp] theorem seqToStage_d (u : MicroStep) (s : State) : (seqToStage u s).d = s.d := rfl
@[simp] theorem seqToStage_w (u : MicroStep) (s : State) : (seqToStage u s).w = s.w := rfl
@[simp] theorem seqToStage_pb (u : MicroStep) (s : State) : (seqToStage u s).pb = s.pb := rfl
@[simp] theorem seqToStage_pbDraw (u : MicroStep) (s : State) : (seqToStage u s).pbDraw = s.pbDraw := rfl
@[simp] theorem seqToStage_len (u : MicroStep) (s : State) : (seqToStage u s).len = s.len := rfl
@[simp] theorem seqToStage_nblk (u : MicroStep) (s : State) : (seqToStage u s).nblk = s.nblk := rfl
@[simp] theorem seqToStage_fault (u : MicroStep) (s : State) : (seqToStage u s).fault = s.fault := rfl
@[simp] theorem seqToStage_digest (u : MicroStep) (s : State) : (seqToStage u s).digest = s.digest := rfl
@[simp] theorem seqToStage_cmd (u : MicroStep) (s : State) : (seqToStage u s).cmd = s.cmd := rfl
@[simp] theorem seqToStage_host (u : MicroStep) (s : State) : (seqToStage u s).host = s.host := rfl
@[simp] theorem seqToStage_reads (u : MicroStep) (s : State) : (seqToStage u s).reads = s.reads := rfl
@[simp] theorem seqToStage_draws (u : MicroStep) (s : State) : (seqToStage u s).draws = s.draws + 1 := rfl

@[simp] theorem raiseFault_cap (cause : FaultCause) (s : State) : (raiseFault cause s).cap = s.cap := rfl
@[simp] theorem raiseFault_phase (cause : FaultCause) (s : State) : (raiseFault cause s).phase = .fault := rfl
@[simp] theorem raiseFault_pb (cause : FaultCause) (s : State) : (raiseFault cause s).pb = [] := rfl
@[simp] theorem raiseFault_pbDraw (cause : FaultCause) (s : State) : (raiseFault cause s).pbDraw = s.draws := rfl
@[simp] theorem raiseFault_fault (cause : FaultCause) (s : State) : (raiseFault cause s).fault = cause := rfl
@[simp] theorem raiseFault_cmd (cause : FaultCause) (s : State) : (raiseFault cause s).cmd = s.cmd := rfl
@[simp] theorem raiseFault_host (cause : FaultCause) (s : State) : (raiseFault cause s).host = s.host := rfl
@[simp] theorem raiseFault_reads (cause : FaultCause) (s : State) : (raiseFault cause s).reads = s.reads := rfl
@[simp] theorem raiseFault_draws (cause : FaultCause) (s : State) : (raiseFault cause s).draws = s.draws + 1 := rfl

@[simp] theorem resetEngine_cap (s : State) : (resetEngine s).cap = s.cap := rfl
@[simp] theorem resetEngine_phase (s : State) : (resetEngine s).phase = .uninit := rfl
@[simp] theorem resetEngine_pb (s : State) : (resetEngine s).pb = [] := rfl
@[simp] theorem resetEngine_pbDraw (s : State) : (resetEngine s).pbDraw = s.draws := rfl
@[simp] theorem resetEngine_fault (s : State) : (resetEngine s).fault = .noFault := rfl
@[simp] theorem resetEngine_cmd (s : State) : (resetEngine s).cmd = none := rfl
@[simp] theorem resetEngine_host (s : State) : (resetEngine s).host = s.host := rfl
@[simp] theorem resetEngine_reads (s : State) : (resetEngine s).reads = s.reads := rfl
@[simp] theorem resetEngine_draws (s : State) : (resetEngine s).draws = s.draws + 1 := rfl

@[simp] theorem memWriteBytes_cap (s : State) (addr : Nat) (bytes : List Byte) : (memWriteBytes s addr bytes).cap = s.cap := rfl
@[simp] theorem memWriteBytes_phase (s : State) (addr : Nat) (bytes : List Byte) : (memWriteBytes s addr bytes).phase = s.phase := rfl
@[simp] theorem memWriteBytes_ustep (s : State) (addr : Nat) (bytes : List Byte) : (memWriteBytes s addr bytes).ustep = s.ustep := rfl
@[simp] theorem memWriteBytes_blk (s : State) (addr : Nat) (bytes : List Byte) : (memWriteBytes s addr bytes).blk = s.blk := rfl
@[simp] theorem memWriteBytes_i (s : State) (addr : Nat) (bytes : List Byte) : (memWriteBytes s addr bytes).i = s.i := rfl
@[simp] theorem memWriteBytes_h (s : State) (addr : Nat) (bytes : List Byte) : (memWriteBytes s addr bytes).h = s.h := rfl
@[simp] theorem memWriteBytes_a (s : State) (addr : Nat) (bytes : List Byte) : (memWriteBytes s addr bytes).a = s.a := rfl
@[simp] theorem memWriteBytes_b (s : State) (addr : Nat) (bytes : List Byte) : (memWriteBytes s addr bytes).b = s.b := rfl
@[simp] theorem memWriteBytes_c (s : State) (addr : Nat) (bytes : List Byte) : (memWriteBytes s addr bytes).c = s.c := rfl
@[simp] theorem memWriteBytes_d (s : State) (addr : Nat) (bytes : List Byte) : (memWriteBytes s addr bytes).d = s.d := rfl
@[simp] theorem memWriteBytes_w (s : State) (addr : Nat) (bytes : List Byte) : (memWriteBytes s addr bytes).w = s.w := rfl
@[simp] theorem memWriteBytes_pb (s : State) (addr : Nat) (bytes : List Byte) : (memWriteBytes s addr bytes).pb = putCells s.pb addr bytes := rfl
@[simp] theorem memWriteBytes_pbDraw (s : State) (addr : Nat) (bytes : List Byte) : (memWriteBytes s addr bytes).pbDraw = s.pbDraw := rfl
@[simp] theorem memWriteBytes_len (s : State) (addr : Nat) (bytes : List Byte) : (memWriteBytes s addr bytes).len = s.len := rfl
@[simp] theorem memWriteBytes_nblk (s : State) (addr : Nat) (bytes : List Byte) : (memWriteBytes s addr bytes).nblk = s.nblk := rfl
@[simp] theorem memWriteBytes_fault (s : State) (addr : Nat) (bytes : List Byte) : (memWriteBytes s addr bytes).fault = s.fault := rfl
@[simp] theorem memWriteBytes_digest (s : State) (addr : Nat) (bytes : List Byte) : (memWriteBytes s addr bytes).digest = s.digest := rfl
@[simp] theorem memWriteBytes_cmd (s : State) (addr : Nat) (bytes : List Byte) : (memWriteBytes s addr bytes).cmd = s.cmd := rfl
@[simp] theorem memWriteBytes_host (s : State) (addr : Nat) (bytes : List Byte) : (memWriteBytes s addr bytes).host = s.host := rfl
@[simp] theorem memWriteBytes_reads (s : State) (addr : Nat) (bytes : List Byte) : (memWriteBytes s addr bytes).reads = s.reads := rfl
@[simp] theorem memWriteBytes_draws (s : State) (addr : Nat) (bytes : List Byte) : (memWriteBytes s addr bytes).draws = s.draws := rfl

@[simp] theorem memWrite1_cap (s : State) (addr : Nat) (v : Byte) : (memWrite1 s addr v).cap = s.cap := rfl
@[simp] theorem memWrite1_phase (s : State) (addr : Nat) (v : Byte) : (memWrite1 s addr v).phase = s.phase := rfl
@[simp] theorem memWrite1_ustep (s : State) (addr : Nat) (v : Byte) : (memWrite1 s addr v).ustep = s.ustep := rfl
@[simp] theorem memWrite1_blk (s : State) (addr : Nat) (v : Byte) : (memWrite1 s addr v).blk = s.blk := rfl
@[simp] theorem memWrite1_i (s : State) (addr : Nat) (v : Byte) : (memWrite1 s addr v).i = s.i := rfl
@[simp] theorem memWrite1_h (s : State) (addr : Nat) (v : Byte) : (memWrite1 s addr v).h = s.h := rfl
@[simp] theorem memWrite1_a (s : State) (addr : Nat) (v : Byte) : (memWrite1 s addr v).a = s.a := rfl
@[simp] theorem memWrite1_b (s : State) (addr : Nat) (v : Byte) : (memWrite1 s addr v).b = s.b := rfl
@[simp] theorem memWrite1_c (s : State) (addr : Nat) (v : Byte) : (memWrite1 s addr v).c = s.c := rfl
@[simp] theorem memWrite1_d (s : State) (addr : Nat) (v : Byte) : (memWrite1 s addr v).d = s.d := rfl
@[simp] theorem memWrite1_w (s : State) (addr : Nat) (v : Byte) : (memWrite1 s addr v).w = s.w := rfl
@[simp] theorem memWrite1_pb (s : State) (addr : Nat) (v : Byte) : (memWrite1 s addr v).pb = putCells s.pb addr [v] := rfl
@[simp] theorem memWrite1_pbDraw (s : State) (addr : Nat) (v : Byte) : (memWrite1 s addr v).pbDraw = s.pbDraw := rfl
@[simp] theorem memWrite1_len (s : State) (addr : Nat) (v : Byte) : (memWrite1 s addr v).len = s.len := rfl
@[simp] theorem memWrite1_nblk (s : State) (addr : Nat) (v : Byte) : (memWrite1 s addr v).nblk = s.nblk := rfl
@[simp] theorem memWrite1_fault (s : State) (addr : Nat) (v : Byte) : (memWrite1 s addr v).fault = s.fault := rfl
@[simp] theorem memWrite1_digest (s : State) (addr : Nat) (v : Byte) : (memWrite1 s addr v).digest = s.digest := rfl
@[simp] theorem memWrite1_cmd (s : State) (addr : Nat) (v : Byte) : (memWrite1 s addr v).cmd = s.cmd := rfl
@[simp] theorem memWrite1_host (s : State) (addr : Nat) (v : Byte) : (memWrite1 s addr v).host = s.host := rfl
@[simp] theorem memWrite1_reads (s : State) (addr : Nat) (v : Byte) : (memWrite1 s addr v).reads = s.reads := rfl
@[simp] theorem memWrite1_draws (s : State) (addr : Nat) (v : Byte) : (memWrite1 s addr v).draws = s.draws := rfl

@[simp] theorem memWrite4_cap (s : State) (addr : Nat) (v : Word) : (memWrite4 s addr v).cap = s.cap := rfl
@[simp] theorem memWrite4_phase (s : State) (addr : Nat) (v : Word) : (memWrite4 s addr v).phase = s.phase := rfl
@[simp] theorem memWrite4_ustep (s : State) (addr : Nat) (v : Word) : (memWrite4 s addr v).ustep = s.ustep := rfl
@[simp] theorem memWrite4_blk (s : State) (addr : Nat) (v : Word) : (memWrite4 s addr v).blk = s.blk := rfl
@[simp] theorem memWrite4_i (s : State) (addr : Nat) (v : Word) : (memWrite4 s addr v).i = s.i := rfl
@[simp] theorem memWrite4_h (s : State) (addr : Nat) (v : Word) : (memWrite4 s addr v).h = s.h := rfl
@[simp] theorem memWrite4_a (s : State) (addr : Nat) (v : Word) : (memWrite4 s addr v).a = s.a := rfl
@[simp] theorem memWrite4_b (s : State) (addr : Nat) (v : Word) : (memWrite4 s addr v).b = s.b := rfl
@[simp] theorem memWrite4_c (s : State) (addr : Nat) (v : Word) : (memWrite4 s addr v).c = s.c := rfl
@[simp] theorem memWrite4_d (s : State) (addr : Nat) (v : Word) : (memWrite4 s addr v).d = s.d := rfl
@[simp] theorem memWrite4_w (s : State) (addr : Nat) (v : Word) : (memWrite4 s addr v).w = s.w := rfl
@[simp] theorem memWrite4_pb (s : State) (addr : Nat) (v : Word) : (memWrite4 s addr v).pb = putCells s.pb addr (wordBytes v) := rfl
@[simp] theorem memWrite4_pbDraw (s : State) (addr : Nat) (v : Word) : (memWrite4 s addr v).pbDraw = s.pbDraw := rfl
@[simp] theorem memWrite4_len (s : State) (addr : Nat) (v : Word) : (memWrite4 s addr v).len = s.len := rfl
@[simp] theorem memWrite4_nblk (s : State) (addr : Nat) (v : Word) : (memWrite4 s addr v).nblk = s.nblk := rfl
@[simp] theorem memWrite4_fault (s : State) (addr : Nat) (v : Word) : (memWrite4 s addr v).fault = s.fault := rfl
@[simp] theorem memWrite4_digest (s : State) (addr : Nat) (v : Word) : (memWrite4 s addr v).digest = s.digest := rfl
@[simp] theorem memWrite4_cmd (s : State) (addr : Nat) (v : Word) : (memWrite4 s addr v).cmd = s.cmd := rfl
@[simp] theorem memWrite4_host (s : State) (addr : Nat) (v : Word) : (memWrite4 s addr v).host = s.host := rfl
@[simp] theorem memWrite4_reads (s : State) (addr : Nat) (v : Word) : (memWrite4 s addr v).reads = s.reads := rfl
@[simp] theorem memWrite4_draws (s : State) (addr : Nat) (v : Word) : (memWrite4 s addr v).draws = s.draws := rfl

@[simp] theorem padBuffer_cap (s : State) : (padBuffer s).cap = s.cap := rfl
@[simp] theorem padBuffer_phase (s : State) : (padBuffer s).phase = s.phase := rfl
@[simp] theorem padBuffer_ustep (s : State) : (padBuffer s).ustep = s.ustep := rfl
@[simp] theorem padBuffer_blk (s : State) : (padBuffer s).blk = s.blk := rfl
@[simp] theorem padBuffer_i (s : State) : (padBuffer s).i = s.i := rfl
@[simp] theorem padBuffer_h (s : State) : (padBuffer s).h = s.h := rfl
@[simp] theorem padBuffer_a (s : State) : (padBuffer s).a = s.a := rfl
@[simp] theorem padBuffer_b (s : State) : (padBuffer s).b = s.b := rfl
@[simp] theorem padBuffer_c (s : State) : (padBuffer s).c = s.c := rfl
@[simp] theorem padBuffer_d (s : State) : (padBuffer s).d = s.d := rfl
@[simp] theorem padBuffer_w (s : State) : (padBuffer s).w = s.w := rfl
@[simp] theorem padBuffer_pbDraw (s : State) : (padBuffer s).pbDraw = s.pbDraw := rfl
@[simp] theorem padBuffer_len (s : State) : (padBuffer s).len = s.len := rfl
@[simp] theorem padBuffer_nblk (s : State) : (padBuffer s).nblk = s.nblk := rfl
@[simp] theorem padBuffer_fault (s : State) : (padBuffer s).fault = s.fault := rfl
@[simp] theorem padBuffer_digest (s : State) : (padBuffer s).digest = s.digest := rfl
@[simp] theorem padBuffer_cmd (s : State) : (padBuffer s).cmd = s.cmd := rfl
@[simp] theorem padBuffer_host (s : State) : (padBuffer s).host = s.host := rfl
@[simp] theorem padBuffer_reads (s : State) : (padBuffer s).reads = s.reads := rfl
@[simp] theorem padBuffer_draws (s : State) : (padBuffer s).draws = s.draws := rfl

@[simp] theorem roundWrite_cap (f : Word) (g : Fin 16) (r : BitVec 6) (s : State) : (roundWrite f g r s).cap = s.cap := rfl
@[simp] theorem roundWrite_phase (f : Word) (g : Fin 16) (r : BitVec 6) (s : State) : (roundWrite f g r s).phase = s.phase := rfl
@[simp] theorem roundWrite_ustep (f : Word) (g : Fin 16) (r : BitVec 6) (s : State) : (roundWrite f g r s).ustep = s.ustep := rfl
@[simp] theorem roundWrite_blk (f : Word) (g : Fin 16) (r : BitVec 6) (s : State) : (roundWrite f g r s).blk = s.blk := rfl
@[simp] theorem roundWrite_i (f : Word) (g : Fin 16) (r : BitVec 6) (s : State) : (roundWrite f g r s).i = s.i := rfl
@[simp] theorem roundWrite_h (f : Word) (g : Fin 16) (r : BitVec 6) (s : State) : (roundWrite f g r s).h = s.h := rfl
@[simp] theorem roundWrite_a (f : Word) (g : Fin 16) (r : BitVec 6) (s : State) : (roundWrite f g r s).a = s.d := rfl
@[simp] theorem roundWrite_b (f : Word) (g : Fin 16) (r : BitVec 6) (s : State) : (roundWrite f g r s).b = roundResult s.a s.b f r s.w[g] := rfl
@[simp] theorem roundWrite_c (f : Word) (g : Fin 16) (r : BitVec 6) (s : State) : (roundWrite f g r s).c = s.b := rfl
@[simp] theorem roundWrite_d (f : Word) (g : Fin 16) (r : BitVec 6) (s : State) : (roundWrite f g r s).d = s.c := rfl
@[simp] theorem roundWrite_w (f : Word) (g : Fin 16) (r : BitVec 6) (s : State) : (roundWrite f g r s).w = s.w := rfl
@[simp] theorem roundWrite_pb (f : Word) (g : Fin 16) (r : BitVec 6) (s : State) : (roundWrite f g r s).pb = s.pb := rfl
@[simp] theorem roundWrite_pbDraw (f : Word) (g : Fin 16) (r : BitVec 6) (s : State) : (roundWrite f g r s).pbDraw = s.pbDraw := rfl
@[simp] theorem roundWrite_len (f : Word) (g : Fin 16) (r : BitVec 6) (s : State) : (roundWrite f g r s).len = s.len := rfl
@[simp] theorem roundWrite_nblk (f : Word) (g : Fin 16) (r : BitVec 6) (s : State) : (roundWrite f g r s).nblk = s.nblk := rfl
@[simp] theorem roundWrite_fault (f : Word) (g : Fin 16) (r : BitVec 6) (s : State) : (roundWrite f g r s).fault = s.fault := rfl
@[simp] theorem roundWrite_digest (f : Word) (g : Fin 16) (r : BitVec 6) (s : State) : (roundWrite f g r s).digest = s.digest := rfl
@[simp] theorem roundWrite_cmd (f : Word) (g : Fin 16) (r : BitVec 6) (s : State) : (roundWrite f g r s).cmd = s.cmd := rfl
@[simp] theorem roundWrite_host (f : Word) (g : Fin 16) (r : BitVec 6) (s : State) : (roundWrite f g r s).host = s.host := rfl
@[simp] theorem roundWrite_reads (f : Word) (g : Fin 16) (r : BitVec 6) (s : State) : (roundWrite f g r s).reads = s.reads := rfl
@[simp] theorem roundWrite_draws (f : Word) (g : Fin 16) (r : BitVec 6) (s : State) : (roundWrite f g r s).draws = s.draws := rfl

@[simp] theorem loadBlock_cap (s : State) : (loadBlock s).cap = s.cap := rfl
@[simp] theorem loadBlock_phase (s : State) : (loadBlock s).phase = s.phase := rfl
@[simp] theorem loadBlock_ustep (s : State) : (loadBlock s).ustep = s.ustep := rfl
@[simp] theorem loadBlock_blk (s : State) : (loadBlock s).blk = s.blk := rfl
@[simp] theorem loadBlock_i (s : State) : (loadBlock s).i = s.i := rfl
@[simp] theorem loadBlock_h (s : State) : (loadBlock s).h = s.h := rfl
@[simp] theorem loadBlock_a (s : State) : (loadBlock s).a = s.h[0] := rfl
@[simp] theorem loadBlock_b (s : State) : (loadBlock s).b = s.h[1] := rfl
@[simp] theorem loadBlock_c (s : State) : (loadBlock s).c = s.h[2] := rfl
@[simp] theorem loadBlock_d (s : State) : (loadBlock s).d = s.h[3] := rfl
@[simp] theorem loadBlock_pb (s : State) : (loadBlock s).pb = s.pb := rfl
@[simp] theorem loadBlock_pbDraw (s : State) : (loadBlock s).pbDraw = s.pbDraw := rfl
@[simp] theorem loadBlock_len (s : State) : (loadBlock s).len = s.len := rfl
@[simp] theorem loadBlock_nblk (s : State) : (loadBlock s).nblk = s.nblk := rfl
@[simp] theorem loadBlock_fault (s : State) : (loadBlock s).fault = s.fault := rfl
@[simp] theorem loadBlock_digest (s : State) : (loadBlock s).digest = s.digest := rfl
@[simp] theorem loadBlock_cmd (s : State) : (loadBlock s).cmd = s.cmd := rfl
@[simp] theorem loadBlock_host (s : State) : (loadBlock s).host = s.host := rfl
@[simp] theorem loadBlock_reads (s : State) : (loadBlock s).reads = s.reads := rfl
@[simp] theorem loadBlock_draws (s : State) : (loadBlock s).draws = s.draws := rfl

@[simp] theorem foldAccumulator_cap (s : State) : (foldAccumulator s).cap = s.cap := rfl
@[simp] theorem foldAccumulator_phase (s : State) : (foldAccumulator s).phase = s.phase := rfl
@[simp] theorem foldAccumulator_ustep (s : State) : (foldAccumulator s).ustep = s.ustep := rfl
@[simp] theorem foldAccumulator_blk (s : State) : (foldAccumulator s).blk = s.blk := rfl
@[simp] theorem foldAccumulator_i (s : State) : (foldAccumulator s).i = s.i := rfl
@[simp] theorem foldAccumulator_a (s : State) : (foldAccumulator s).a = s.a := rfl
@[simp] theorem foldAccumulator_b (s : State) : (foldAccumulator s).b = s.b := rfl
@[simp] theorem foldAccumulator_c (s : State) : (foldAccumulator s).c = s.c := rfl
@[simp] theorem foldAccumulator_d (s : State) : (foldAccumulator s).d = s.d := rfl
@[simp] theorem foldAccumulator_w (s : State) : (foldAccumulator s).w = s.w := rfl
@[simp] theorem foldAccumulator_pb (s : State) : (foldAccumulator s).pb = s.pb := rfl
@[simp] theorem foldAccumulator_pbDraw (s : State) : (foldAccumulator s).pbDraw = s.pbDraw := rfl
@[simp] theorem foldAccumulator_len (s : State) : (foldAccumulator s).len = s.len := rfl
@[simp] theorem foldAccumulator_nblk (s : State) : (foldAccumulator s).nblk = s.nblk := rfl
@[simp] theorem foldAccumulator_fault (s : State) : (foldAccumulator s).fault = s.fault := rfl
@[simp] theorem foldAccumulator_digest (s : State) : (foldAccumulator s).digest = s.digest := rfl
@[simp] theorem foldAccumulator_cmd (s : State) : (foldAccumulator s).cmd = s.cmd := rfl
@[simp] theorem foldAccumulator_host (s : State) : (foldAccumulator s).host = s.host := rfl
@[simp] theorem foldAccumulator_reads (s : State) : (foldAccumulator s).reads = s.reads := rfl
@[simp] theorem foldAccumulator_draws (s : State) : (foldAccumulator s).draws = s.draws := rfl

@[simp] theorem readStatus_cap (s : State) : (readStatus s).cap = s.cap := rfl
@[simp] theorem readStatus_phase (s : State) : (readStatus s).phase = s.phase := rfl
@[simp] theorem readStatus_ustep (s : State) : (readStatus s).ustep = s.ustep := rfl
@[simp] theorem readStatus_blk (s : State) : (readStatus s).blk = s.blk := rfl
@[simp] theorem readStatus_i (s : State) : (readStatus s).i = s.i := rfl
@[simp] theorem readStatus_h (s : State) : (readStatus s).h = s.h := rfl
@[simp] theorem readStatus_a (s : State) : (readStatus s).a = s.a := rfl
@[simp] theorem readStatus_b (s : State) : (readStatus s).b = s.b := rfl
@[simp] theorem readStatus_c (s : State) : (readStatus s).c = s.c := rfl
@[simp] theorem readStatus_d (s : State) : (readStatus s).d = s.d := rfl
@[simp] theorem readStatus_w (s : State) : (readStatus s).w = s.w := rfl
@[simp] theorem readStatus_pb (s : State) : (readStatus s).pb = s.pb := rfl
@[simp] theorem readStatus_pbDraw (s : State) : (readStatus s).pbDraw = s.pbDraw := rfl
@[simp] theorem readStatus_len (s : State) : (readStatus s).len = s.len := rfl
@[simp] theorem readStatus_nblk (s : State) : (readStatus s).nblk = s.nblk := rfl
@[simp] theorem readStatus_fault (s : State) : (readStatus s).fault = s.fault := rfl
@[simp] theorem readStatus_digest (s : State) : (readStatus s).digest = s.digest := rfl
@[simp] theorem readStatus_cmd (s : State) : (readStatus s).cmd = s.cmd := rfl
@[simp] theorem readStatus_host (s : State) : (readStatus s).host = s.host := rfl
@[simp] theorem readStatus_reads (s : State) : (readStatus s).reads = .status s.status :: s.reads := rfl
@[simp] theorem readStatus_draws (s : State) : (readStatus s).draws = s.draws := rfl

end Sys2Proof.Machine
end

