-- ==== Sys2Proof/Laws/Ops.lean ====
section
/-! SUPPORT. What each shared operation can answer: one lemma per operation, cited instead of unfolding it. -/

namespace Sys2Proof.Machine

@[simp] theorem capacityFits_unbounded (n : Nat) : capacityFits .unbounded n = true := rfl

theorem capacityFits_mono (cap : Capacity) {m n : Nat} (h : capacityFits cap n = true) (hmn : m ≤ n) :
    capacityFits cap m = true := by
  cases cap with
  | unbounded => rfl
  | blocks k =>
    simp only [capacityFits, decide_eq_true_eq] at h ⊢
    omega

/-- The capacity is a multiple of 64, so rounding up to one keeps a fit. -/
theorem capacityFits_roundUp (cap : Capacity) (n : Nat) (h : capacityFits cap n = true) :
    capacityFits cap (64 * ((n + 63) / 64)) = true := by
  cases cap with
  | unbounded => rfl
  | blocks k =>
    simp only [capacityFits, decide_eq_true_eq] at h ⊢
    omega

theorem withinBuffer_next {n : Nat} {s t u : State} (h : withinBuffer n s u = .next t) :
    capacityFits s.cap n = true ∧ t = u := by
  unfold withinBuffer at h
  split at h
  · exact ⟨‹_›, by simpa using h.symm⟩
  · cases h

theorem withinBuffer_of_fits {n : Nat} {s u : State} (h : capacityFits s.cap n = true) :
    withinBuffer n s u = .next u := by simp [withinBuffer, h]

theorem enabledAt_next {u : MicroStep} {s t : State} {r : Result} (h : enabledAt u s r = .next t) :
    (s.phase = .busy ∧ s.ustep = u) ∧ r = .next t := by
  unfold enabledAt at h
  split at h
  · exact ⟨‹_›, h⟩
  · cases h

theorem enabledAt_of_enabled {u : MicroStep} {s : State} (r : Result) (hp : s.phase = .busy) (hu : s.ustep = u) :
    enabledAt u s r = r := by simp [enabledAt, hp, hu]

/-- A command other than START: it waits in BUSY, is ignored in FAULT, and is accepted otherwise. -/
theorem command_next {code : CodeWord} {s t : State} {r : Result} (h : command code s r = .next t) :
    (s.phase = .busy ∧ t = holdWord code s) ∨ (s.phase = .fault ∧ t = s) ∨
      (s.phase ≠ .busy ∧ s.phase ≠ .fault ∧ r = .next t) := by
  unfold command at h
  split at h <;> simp_all

theorem command_accepts {code : CodeWord} {s : State} (r : Result) (hb : s.phase ≠ .busy) (hf : s.phase ≠ .fault) :
    command code s r = r := by
  unfold command
  split <;> simp_all

theorem inAbsorb_next {s t : State} {r : Result} (h : inAbsorb s r = .next t) :
    (s.phase = .absorb ∧ r = .next t) ∨ (s.phase ≠ .absorb ∧ t = raiseFault .protocol s) := by
  unfold inAbsorb at h
  split at h
  · exact .inl ⟨‹_›, h⟩
  · exact .inr ⟨‹_›, by simpa using h.symm⟩

/-- Appending a character's bytes: room and the bytes written, or no room and an ALLOC fault. -/
theorem appendBytes_cases (bytes : List Byte) (s : State) :
    (capacityFits s.cap (s.len + bytes.length + 9) = true ∧
      appendBytes bytes s = { memWriteBytes s s.len bytes with len := s.len + bytes.length }) ∨
    (capacityFits s.cap (s.len + bytes.length + 9) = false ∧ appendBytes bytes s = raiseFault .alloc s) := by
  unfold appendBytes
  split
  · exact .inl ⟨‹_›, rfl⟩
  · exact .inr ⟨Bool.eq_false_iff.mpr ‹_›, rfl⟩

theorem roundOf_next {f : Word} {g : Fin 16} {r : BitVec 6} {s t : State} {next : State → State}
    (h : roundOf f g r s next = .next t) :
    s.phase = .busy ∧ s.ustep = .rnd ∧ s.i = r ∧ t = next (roundWrite f g r s) := by
  obtain ⟨⟨hp, hu⟩, h⟩ := enabledAt_next h
  split at h
  · exact ⟨hp, hu, ‹_›, by simpa using h.symm⟩
  · cases h

theorem roundOf_of_enabled {f : Word} {g : Fin 16} {r : BitVec 6} {s : State} (next : State → State)
    (hp : s.phase = .busy) (hu : s.ustep = .rnd) (hi : s.i = r) :
    roundOf f g r s next = .next (next (roundWrite f g r s)) := by
  simp [roundOf, enabledAt, hp, hu, hi]

/-- Holding a word changes the port only, and only a free port. -/
theorem holdWord_eq (code : CodeWord) (s : State) : ∃ c, holdWord code s = { s with cmd := c } ∧ (s.cmd ≠ none → c = s.cmd) := by
  unfold holdWord
  split
  · exact ⟨_, rfl, fun h => absurd ‹s.cmd = none› h⟩
  · exact ⟨s.cmd, rfl, fun _ => rfl⟩
  · exact ⟨s.cmd, rfl, fun _ => rfl⟩

/-- START in a phase that accepts it. -/
theorem execStart_accepts {s : State} (h : s.phase ≠ .busy) : execStart s = .next (startCall s) := by
  unfold execStart
  split <;> simp_all

@[simp] theorem startCall_phase (s : State) : (startCall s).phase = .absorb := rfl
@[simp] theorem startCall_fault (s : State) : (startCall s).fault = .noFault := rfl
@[simp] theorem startCall_len (s : State) : (startCall s).len = 0 := rfl
@[simp] theorem startCall_h (s : State) : (startCall s).h = initialAccumulator := rfl
@[simp] theorem startCall_pb (s : State) : (startCall s).pb = s.pb := by unfold startCall; dsimp only; split <;> rfl
@[simp] theorem startCall_cap (s : State) : (startCall s).cap = s.cap := by unfold startCall; dsimp only; split <;> rfl
@[simp] theorem startCall_cmd (s : State) : (startCall s).cmd = s.cmd := by unfold startCall; dsimp only; split <;> rfl
@[simp] theorem startCall_host (s : State) : (startCall s).host = s.host := by unfold startCall; dsimp only; split <;> rfl
@[simp] theorem startCall_reads (s : State) : (startCall s).reads = s.reads := by unfold startCall; dsimp only; split <;> rfl

theorem readDigest_next {j : BitVec 4} {s t : State} (h : readDigest j s = .next t) :
    s.phase = .done ∧ t = { s with reads := .digest j (s.digest[j.toNat]'j.isLt) :: s.reads } := by
  unfold readDigest at h
  split at h
  · exact ⟨‹_›, by simpa using h.symm⟩
  · cases h

end Sys2Proof.Machine
end

