-- ==== Sys2Proof/Laws/PerInstr.lean ====
section
/-! SUPPORT. The family RowCoversEncoding: the code of a well-formed instruction falls under its own row of the opcode table,
`match`, `mask` and `constraint` together (30_encoding.md R73). One lemma per constructor. -/

namespace Sys2Proof

/-- The high bits of a small operand are 0. -/
theorem getLsbD_of_toNat_lt {cp : BitVec 21} {n : Nat} (h : cp.toNat < 2 ^ n) {j : Nat} (hj : n ≤ j) :
    cp.getLsbD j = false :=
  Nat.testBit_lt_two_pow (lt_of_lt_of_le h (Nat.pow_le_pow_right (by decide) hj))

/-- A command word under a mask that reads `op` and the operand bits from `n` up, all 0. -/
theorem commandWord_masked (op : BitVec 3) (cp : BitVec 21) (n : Nat) (hn : n ≤ 21) (h : cp.toNat < 2 ^ n) :
    commandWord op cp &&& (BitVec.allOnes 24 <<< n) = commandWord op 0#21 := by
  apply BitVec.eq_of_getLsbD_eq
  intro i hi
  simp only [BitVec.getLsbD_and, getLsbD_commandWord, BitVec.getLsbD_shiftLeft, BitVec.getLsbD_allOnes,
    BitVec.getLsbD_zero, hi, decide_true, Bool.true_and]
  by_cases h1 : i < n
  · have h2 : i < 21 := by omega
    simp [h1, h2]
  · by_cases h2 : i < 21
    · rw [if_pos h2, if_pos h2, getLsbD_of_toNat_lt h (Nat.le_of_not_lt h1), Bool.false_and]
    · have h3 : i - n < 24 := by omega
      simp [h1, h2, h3]

end Sys2Proof

namespace Sys2Proof.Laws.RowCoversEncoding

/-- The code of a well-formed instruction is covered by the instruction's own row. -/
def Statement (i : Instr) : Prop :=
  i.wellFormed = true →
    match encode i with
    | .cmd w => ∃ n r, i.commandRow = some n ∧ commandRows[n]? = some r ∧ r.covers w = true
    | .useq w => ∃ n r, i.microRow = some n ∧ microRows[n]? = some r ∧ r.covers w = true

theorem start : Statement .start := fun _ => ⟨0, _, rfl, rfl, by decide⟩

theorem putcEnc1 (cp : BitVec 21) : Statement (.putcEnc1 cp) := by
  intro h
  simp only [Instr.wellFormed, decide_eq_true_eq] at h
  refine ⟨1, _, rfl, rfl, ?_⟩
  have := commandWord_masked 2#3 cp 7 (by decide) (by omega)
  simp only [OpcodeRow.covers, cpOf_commandWord, Bool.and_eq_true, beq_iff_eq, decide_eq_true_eq]
  exact ⟨this, h⟩

theorem putcEnc2 (cp : BitVec 21) : Statement (.putcEnc2 cp) := by
  intro h
  simp only [Instr.wellFormed, Bool.and_eq_true, decide_eq_true_eq] at h
  refine ⟨2, _, rfl, rfl, ?_⟩
  have := commandWord_masked 2#3 cp 11 (by decide) (by omega)
  simp only [OpcodeRow.covers, cpOf_commandWord, Bool.and_eq_true, beq_iff_eq, decide_eq_true_eq]
  exact ⟨this, h⟩

theorem putcEnc3 (cp : BitVec 21) : Statement (.putcEnc3 cp) := by
  intro h
  simp only [Instr.wellFormed, isSurrogate, Bool.and_eq_true, decide_eq_true_eq, Bool.not_eq_true', Bool.and_eq_false_iff,
    decide_eq_false_iff_not] at h
  refine ⟨3, _, rfl, rfl, ?_⟩
  have := commandWord_masked 2#3 cp 16 (by decide) (by omega)
  simp only [OpcodeRow.covers, cpOf_commandWord, Bool.and_eq_true, beq_iff_eq, decide_eq_true_eq]
  exact ⟨this, by omega⟩

theorem putcEnc4 (cp : BitVec 21) : Statement (.putcEnc4 cp) := by
  intro h
  simp only [Instr.wellFormed, Bool.and_eq_true, decide_eq_true_eq] at h
  refine ⟨4, _, rfl, rfl, ?_⟩
  have := commandWord_masked 2#3 cp 21 (by decide) cp.isLt
  simp only [OpcodeRow.covers, cpOf_commandWord, Bool.and_eq_true, beq_iff_eq, decide_eq_true_eq]
  exact ⟨this, h⟩

theorem putcBad (cp : BitVec 21) : Statement (.putcBad cp) := by
  intro h
  simp only [Instr.wellFormed, isScalar, isSurrogate, Bool.not_eq_true', Bool.and_eq_false_iff, decide_eq_false_iff_not,
    Bool.not_eq_false', Bool.and_eq_true, decide_eq_true_eq] at h
  refine ⟨5, _, rfl, rfl, ?_⟩
  have := commandWord_masked 2#3 cp 21 (by decide) cp.isLt
  have hlt := cp.isLt
  simp only [OpcodeRow.covers, cpOf_commandWord, Bool.and_eq_true, beq_iff_eq, decide_eq_true_eq]
  exact ⟨this, by omega⟩

theorem finish : Statement .finish := fun _ => ⟨6, _, rfl, rfl, by decide⟩

theorem reservedOp0 (x : BitVec 21) : Statement (.reservedOp0 x) := by
  intro _
  refine ⟨7, _, rfl, rfl, ?_⟩
  have := commandWord_masked 0#3 x 21 (by decide) x.isLt
  simp only [OpcodeRow.covers, Bool.and_true, beq_iff_eq]
  exact this

theorem reservedStartArg (arg : BitVec 21) : Statement (.reservedStartArg arg) := by
  intro h
  refine ⟨8, _, rfl, rfl, ?_⟩
  have := commandWord_masked 1#3 arg 21 (by decide) arg.isLt
  simp only [OpcodeRow.covers, argField_commandWord, Bool.and_eq_true, beq_iff_eq]
  exact ⟨this, h⟩

theorem reservedFinishArg (arg : BitVec 21) : Statement (.reservedFinishArg arg) := by
  intro h
  refine ⟨9, _, rfl, rfl, ?_⟩
  have := commandWord_masked 3#3 arg 21 (by decide) arg.isLt
  simp only [OpcodeRow.covers, argField_commandWord, Bool.and_eq_true, beq_iff_eq]
  exact ⟨this, h⟩

theorem reservedOp4to7 (x : BitVec 23) : Statement (.reservedOp4to7 x) := by
  intro _
  refine ⟨10, _, rfl, rfl, ?_⟩
  simp only [OpcodeRow.covers, Bool.and_eq_true, beq_iff_eq, and_true]
  apply BitVec.eq_of_getLsbD_eq
  intro i hi
  rw [BitVec.getLsbD_and, show (1#1 ++ x : BitVec 24).getLsbD i = if i < 23 then x.getLsbD i else (1#1).getLsbD (i - 23) from
    BitVec.getLsbD_append]
  interval_cases i <;> simp

theorem pad : Statement .pad := fun _ => ⟨0, _, rfl, rfl, by decide⟩

theorem loadw : Statement .loadw := fun _ => ⟨1, _, rfl, rfl, by decide⟩

theorem rndq0 (k : BitVec 4) : Statement (.rndq0 k) := by
  intro _
  exact ⟨2, _, rfl, rfl, by revert k; decide⟩

theorem rndq1 (k : BitVec 4) : Statement (.rndq1 k) := by
  intro _
  exact ⟨3, _, rfl, rfl, by revert k; decide⟩

theorem rndq2 (k : BitVec 4) : Statement (.rndq2 k) := by
  intro _
  exact ⟨4, _, rfl, rfl, by revert k; decide⟩

theorem rndq3 (k : BitVec 4) : Statement (.rndq3 k) := by
  intro _
  exact ⟨5, _, rfl, rfl, by revert k; decide⟩

theorem fold : Statement .fold := fun _ => ⟨6, _, rfl, rfl, by decide⟩

theorem ser : Statement .ser := fun _ => ⟨7, _, rfl, rfl, by decide⟩

end Sys2Proof.Laws.RowCoversEncoding
end

