-- ==== Sys2Proof/Laws/Step.lean ====
section
/-! SUPPORT. What one step can be (00_scope.md R16): the inversion lemma that every proof about all steps starts from. -/

namespace Sys2Proof.Machine

/-- The engine's own step: a micro-operation in BUSY, else the waiting command, else nothing. -/
theorem engineEvent_cases (s : State) :
    (s.phase = .busy ∧ engineEvent s = .run (microOp s.ustep s.i) s) ∨
    (s.phase ≠ .busy ∧ ∃ w, s.cmd = some w ∧ engineEvent s = .run (decodeCommand w) { s with cmd := none }) ∨
    (s.phase ≠ .busy ∧ s.cmd = none ∧ engineEvent s = .answer (.next s)) := by
  unfold engineEvent
  split
  · exact .inl ⟨‹_›, rfl⟩
  · split
    · exact .inr (.inl ⟨‹_›, _, ‹_›, rfl⟩)
    · exact .inr (.inr ⟨‹_›, ‹_›, rfl⟩)

/-- An instruction that a step runs: which one, and at which state. -/
structure Runs (s : State) (i : Instr) (u : State) : Prop where
  /-- Only the two ends of the host's side differ from `s`. -/
  same : ∃ host cmd, u = { s with host := host, cmd := cmd }
  /-- It is the micro-operation of the sequencer, or a command word from the port. -/
  which : (s.phase = .busy ∧ i = microOp s.ustep s.i ∧ u.cmd = s.cmd) ∨
    (∃ w, i = decodeCommand w ∧ u.cmd = none ∧
      ((s.cmd = none ∧ s.host = .issue w :: u.host) ∨ (s.phase ≠ .busy ∧ s.cmd = some w)))

/-- What `nextEvent` can be. -/
theorem nextEvent_cases (s : State) :
    (∃ i u, nextEvent s = .run i u ∧ Runs s i u) ∨
    (∃ host, nextEvent s = .answer (.next { s with host := host })) ∨
    (∃ rest, s.host = .readStatus :: rest ∧ nextEvent s = .answer (.next (readStatus { s with host := rest }))) ∨
    (∃ j rest, s.host = .readDigest j :: rest ∧ nextEvent s = .answer (readDigest j { s with host := rest })) ∨
    (∃ rest, s.host = .reset :: rest ∧ nextEvent s = .answer (.next (resetEngine { s with host := rest }))) := by
  have engine : ∀ host, nextEvent s = engineEvent { s with host := host } →
      (∃ i u, nextEvent s = .run i u ∧ Runs s i u) ∨
      (∃ host, nextEvent s = .answer (.next { s with host := host })) := by
    intro host h
    rw [h]
    obtain ⟨hp, he⟩ | ⟨hp, w, hc, he⟩ | ⟨hp, hc, he⟩ := engineEvent_cases { s with host := host }
    · exact .inl ⟨_, _, he, ⟨host, s.cmd, rfl⟩, .inl ⟨hp, rfl, rfl⟩⟩
    · exact .inl ⟨_, _, he, ⟨host, none, rfl⟩, .inr ⟨w, rfl, rfl, .inr ⟨hp, hc⟩⟩⟩
    · exact .inr ⟨host, he⟩
  have widen : ∀ {p q r : Prop}, p ∨ q → p ∨ q ∨ r := fun h => h.elim .inl (.inr ∘ .inl)
  cases hh : s.host with
  | nil => exact widen (engine s.host (show nextEvent s = engineEvent s by simp only [nextEvent, hh]))
  | cons m rest =>
    cases m with
    | issue w =>
      obtain hc | ⟨v, hc⟩ : s.cmd = none ∨ ∃ v, s.cmd = some v := by cases s.cmd <;> simp
      · refine .inl ⟨decodeCommand w, { s with host := rest }, by simp only [nextEvent, hh, hc], ⟨rest, s.cmd, rfl⟩, ?_⟩
        exact .inr ⟨w, rfl, hc, .inl ⟨hc, hh⟩⟩
      · exact widen (engine s.host (show nextEvent s = engineEvent s by simp only [nextEvent, hh, hc]))
    | readStatus => exact .inr (.inr (.inl ⟨rest, rfl, by simp only [nextEvent, hh]⟩))
    | readDigest j => exact .inr (.inr (.inr (.inl ⟨j, rest, rfl, by simp only [nextEvent, hh]⟩)))
    | reset => exact .inr (.inr (.inr (.inr ⟨rest, rfl, by simp only [nextEvent, hh]⟩)))
    | yield => exact widen (engine rest (by simp only [nextEvent, hh]))
    | wait =>
      by_cases hb : s.phase = .busy
      · exact widen (engine s.host (show nextEvent s = engineEvent s by simp only [nextEvent, hh, hb, if_true]))
      · exact .inr (.inl ⟨rest, by simp only [nextEvent, hh, hb, if_false]⟩)

/-- What a step that answers a next state did. -/
theorem step_next_cases {s t : State} (h : step s = .next t) :
    (∃ i u, Runs s i u ∧ exec i u = .next t) ∨
    (∃ host, t = { s with host := host }) ∨
    (∃ rest, s.host = .readStatus :: rest ∧ t = readStatus { s with host := rest }) ∨
    (∃ j rest, s.host = .readDigest j :: rest ∧ readDigest j { s with host := rest } = .next t) ∨
    (∃ rest, s.host = .reset :: rest ∧ t = resetEngine { s with host := rest }) := by
  unfold step at h
  obtain ⟨i, u, he, hr⟩ | ⟨host, he⟩ | ⟨rest, hh, he⟩ | ⟨j, rest, hh, he⟩ | ⟨rest, hh, he⟩ := nextEvent_cases s <;>
    rw [he] at h
  · exact .inl ⟨i, u, hr, h⟩
  · exact .inr (.inl ⟨host, by simpa using h.symm⟩)
  · exact .inr (.inr (.inl ⟨rest, hh, by simpa using h.symm⟩))
  · exact .inr (.inr (.inr (.inl ⟨j, rest, hh, h⟩)))
  · exact .inr (.inr (.inr (.inr ⟨rest, hh, by simpa using h.symm⟩)))

/-- The counter of free values from `s` to `t`: it may advance, and if the buffer becomes unspecified, it does so with a number
never drawn before. -/
def DrawsOn (s t : State) : Prop :=
  s.draws ≤ t.draws ∧ (t.pbDraw = s.pbDraw ∨ t.pbDraw = s.draws ∧ s.draws < t.draws)

/-- Every instruction draws on. -/
theorem exec_draws {i : Instr} {s t : State} (h : exec i s = .next t) : DrawsOn s t := by
  have fault : ∀ (cause : FaultCause) {u : State}, u = raiseFault cause s → DrawsOn s u := by
    rintro cause u rfl
    simp [DrawsOn]
  have cmd : ∀ {code : CodeWord} {r : Result}, command code s r = .next t →
      (r = .next t → DrawsOn s t) → DrawsOn s t := by
    intro code r h hr
    obtain ⟨_, rfl⟩ | ⟨_, rfl⟩ | ⟨_, _, h⟩ := command_next h
    · obtain ⟨c, he, _⟩ := holdWord_eq code s
      simp [DrawsOn, he]
    · simp [DrawsOn]
    · exact hr h
  have putc : ∀ {bytes : List Byte}, inAbsorb s (.next (appendBytes bytes s)) = .next t → DrawsOn s t := by
    intro bytes h
    obtain ⟨_, h⟩ | ⟨_, h⟩ := inAbsorb_next h
    · cases h
      obtain ⟨_, he⟩ | ⟨_, he⟩ := appendBytes_cases bytes s
      · simp [DrawsOn, he]
      · exact fault _ he
    · exact fault _ h
  cases i with
  | start =>
    simp only [exec, execStart] at h
    split at h <;> cases h
    · obtain ⟨c, he, _⟩ := holdWord_eq (encode .start) s
      simp [DrawsOn, he]
    all_goals
      unfold startCall
      dsimp only
      split <;> simp [DrawsOn, forgetDigest]
  | putcEnc1 | putcEnc2 | putcEnc3 | putcEnc4 => exact cmd h putc
  | putcBad =>
    refine cmd h fun h => ?_
    obtain ⟨_, h⟩ | ⟨_, h⟩ := inAbsorb_next h
    · cases h; exact fault _ rfl
    · exact fault _ h
  | finish =>
    refine cmd h fun h => ?_
    obtain ⟨_, h⟩ | ⟨_, h⟩ := inAbsorb_next h
    · cases h; simp [DrawsOn, seqToStage, seqToBlock, seqTo]
    · exact fault _ h
  | reservedOp0 | reservedStartArg | reservedFinishArg | reservedOp4to7 =>
    refine cmd h fun h => ?_
    cases h; exact fault _ rfl
  | pad =>
    obtain ⟨_, h⟩ := enabledAt_next h
    obtain ⟨_, rfl⟩ := withinBuffer_next h
    simp [DrawsOn, seqToBlock, seqTo]
  | loadw =>
    obtain ⟨_, h⟩ := enabledAt_next h
    obtain ⟨_, rfl⟩ := withinBuffer_next h
    simp [DrawsOn]
  | rndq0 | rndq1 | rndq2 =>
    obtain ⟨_, _, _, rfl⟩ := roundOf_next h
    simp [DrawsOn]
  | rndq3 =>
    simp only [exec, execRndq3] at h
    obtain ⟨_, _, _, rfl⟩ := roundOf_next h
    split <;> simp [DrawsOn, seqToBlock, seqTo]
  | fold =>
    obtain ⟨_, h⟩ := enabledAt_next h
    cases h
    split <;> simp [DrawsOn, seqToStage, seqToBlock, seqTo]
  | ser =>
    obtain ⟨_, h⟩ := enabledAt_next h
    cases h
    simp [DrawsOn]

/-- The draw that the unlisted bytes of `PB` come from stays behind the counter, so no later event draws it again
(assumption log entry 6). -/
theorem step_keeps_drawn {s t : State} (h : step s = .next t) (hd : s.pbDraw < s.draws) : t.pbDraw < t.draws := by
  obtain ⟨i, u, ⟨⟨ho, c, rfl⟩, _⟩, h⟩ | ⟨ho, rfl⟩ | ⟨r, _, rfl⟩ | ⟨j, r, _, h⟩ | ⟨r, _, rfl⟩ := step_next_cases h
  · have := exec_draws h
    simp only [DrawsOn] at this
    omega
  · exact hd
  · exact hd
  · rw [(readDigest_next h).2]; exact hd
  · simp

theorem reset_drawn : State.reset.pbDraw < State.reset.draws := by decide

/-- A run of `m + n` steps is a run of `m` and then of `n`. -/
theorem stepN_add {m n : Nat} {s t : State} (h : stepN m s = .next t) : stepN (m + n) s = stepN n t := by
  induction m generalizing s with
  | zero =>
    cases h
    rw [Nat.zero_add]
  | succ m ih =>
    rw [Nat.add_right_comm]
    simp only [stepN] at h ⊢
    split at h
    · exact ih h
    · cases h
    · cases h

end Sys2Proof.Machine
end

