-- ==== Sys2Proof/Tests/Slice0.lean ====
section
/-! SUPPORT. Tests. Expected values are the spec's: the encodings of 30_encoding.md, the examples of each rule, and the vectors
of 95_test_vectors.md and 96_round_traces.md (named V<n>, S<n> in the comments). Then the witnesses: states and operands that
meet the hypotheses of the statements. -/

namespace Sys2Proof.Tests

open Sys2Proof.Machine

/-- A field of the next state, if there is one. -/
def after {α : Type} (r : Result) (f : State → α) : Option α :=
  match r with
  | .next t => some (f t)
  | .fault _ => none
  | .refused _ => none

/-! ### Well-formedness: an ill-formed term for each check -/

theorem test_wf_enc1_refuses_80 : (Instr.putcEnc1 0x80#21).wellFormed = false := by decide
theorem test_wf_enc2_refuses_7f : (Instr.putcEnc2 0x7F#21).wellFormed = false := by decide
theorem test_wf_enc2_refuses_800 : (Instr.putcEnc2 0x800#21).wellFormed = false := by decide
theorem test_wf_enc3_refuses_7ff : (Instr.putcEnc3 0x7FF#21).wellFormed = false := by decide
theorem test_wf_enc3_refuses_surrogates : (Instr.putcEnc3 0xD800#21).wellFormed = false ∧
    (Instr.putcEnc3 0xDFFF#21).wellFormed = false ∧ (Instr.putcEnc3 0xE000#21).wellFormed = true := by decide
theorem test_wf_enc3_refuses_10000 : (Instr.putcEnc3 0x10000#21).wellFormed = false := by decide
theorem test_wf_enc4_refuses_ffff : (Instr.putcEnc4 0xFFFF#21).wellFormed = false := by decide
theorem test_wf_enc4_refuses_110000 : (Instr.putcEnc4 0x110000#21).wellFormed = false := by decide
theorem test_wf_bad_refuses_scalars : (Instr.putcBad 0xD7FF#21).wellFormed = false ∧
    (Instr.putcBad 0x10FFFF#21).wellFormed = false := by decide
theorem test_wf_start_arg_refuses_zero : (Instr.reservedStartArg 0#21).wellFormed = false := by decide
theorem test_wf_finish_arg_refuses_zero : (Instr.reservedFinishArg 0#21).wellFormed = false := by decide

/-! ### Decoding: each row's word, bit by bit from the `encoding` column of the opcode table -/

theorem test_decode_start : decodeTableWord 24 0b001000000000000000000000 = some .start := by decide
theorem test_decode_enc1 : decodeTableWord 24 0b010000000000000001111111 = some (.putcEnc1 0x7F#21) := by decide
theorem test_decode_enc2 : decodeTableWord 24 0b010000000000000010000000 = some (.putcEnc2 0x80#21) := by decide
theorem test_decode_enc2_top : decodeTableWord 24 0b010000000000011111111111 = some (.putcEnc2 0x7FF#21) := by decide
theorem test_decode_enc3 : decodeTableWord 24 0b010000001110000000000000 = some (.putcEnc3 0xE000#21) := by decide
theorem test_decode_enc4 : decodeTableWord 24 0b010100001111111111111111 = some (.putcEnc4 0x10FFFF#21) := by decide
theorem test_decode_bad_surrogate : decodeTableWord 24 0b010000001101111111111111 = some (.putcBad 0xDFFF#21) := by decide
theorem test_decode_bad_beyond : decodeTableWord 24 0b010111111111111111111111 = some (.putcBad 0x1FFFFF#21) := by decide
theorem test_decode_finish : decodeTableWord 24 0b011000000000000000000000 = some .finish := by decide
theorem test_decode_op0 : decodeTableWord 24 0b000000000000000000000101 = some (.reservedOp0 5#21) := by decide
theorem test_decode_start_arg : decodeTableWord 24 0b001100000000000000000000 = some (.reservedStartArg 0x100000#21) := by decide
theorem test_decode_finish_arg : decodeTableWord 24 0b011000000000000000000001 = some (.reservedFinishArg 1#21) := by decide
theorem test_decode_op4 : decodeTableWord 24 0b100000000000000000000000 = some (.reservedOp4to7 0#23) := by decide
theorem test_decode_op7 : decodeTableWord 24 0b111000000000000000000001 = some (.reservedOp4to7 0x600001#23) := by decide
theorem test_decode_pad : decodeTableWord 16 0b000000000 = some .pad := by decide
theorem test_decode_loadw : decodeTableWord 16 0b001000000 = some .loadw := by decide
theorem test_decode_rndq0 : decodeTableWord 16 0b010001111 = some (.rndq0 15#4) := by decide
theorem test_decode_rndq1 : decodeTableWord 16 0b010010000 = some (.rndq1 0#4) := by decide
theorem test_decode_rndq2 : decodeTableWord 16 0b010101010 = some (.rndq2 10#4) := by decide
theorem test_decode_rndq3 : decodeTableWord 16 0b010111111 = some (.rndq3 15#4) := by decide
theorem test_decode_fold : decodeTableWord 16 0b011000000 = some .fold := by decide
theorem test_decode_ser : decodeTableWord 16 0b100000000 = some .ser := by decide
theorem test_decode_ustep5 : decodeMicro 0b101000000#9 = .error .noSuchMicroStep := by rfl
theorem test_decode_pad_with_round : decodeMicro 0b000000001#9 = .error .roundFieldNotZero := by rfl

/-! ### Arithmetic and tables (V1) -/

theorem test_add32_wraps : add32 0xd76aa478#32 0xffffffff#32 = 0xd76aa477#32 := by decide
theorem test_not32 : not32 0x10325476#32 = 0xefcdab89#32 := by decide
theorem test_rotl32 : rotl32 0x12345678#32 23 = 0x3c091a2b#32 ∧ rotl32 0xd76aa4f7#32 7 = 0xb5527beb#32 := by decide
theorem test_rotl32_by_32 : rotl32 0x12345678#32 32 = 0x12345678#32 := by decide
theorem test_mix_truth_tables : mix0 0xaaaaaaaa#32 0xcccccccc#32 0xf0f0f0f0#32 = 0xd8d8d8d8#32 ∧
    mix1 0xaaaaaaaa#32 0xcccccccc#32 0xf0f0f0f0#32 = 0xacacacac#32 ∧
    mix2 0xaaaaaaaa#32 0xcccccccc#32 0xf0f0f0f0#32 = 0x96969696#32 ∧
    mix3 0xaaaaaaaa#32 0xcccccccc#32 0xf0f0f0f0#32 = 0x63636363#32 := by decide

/-! ### Commands (V2, V12, and the examples of R138 to R140) -/

/-- A call open with `n` bytes counted, over a given buffer and capacity. -/
def absorbing (n : Nat) (pb : List Host.Cell) (cap : Capacity) : State :=
  { State.reset with phase := .absorb, len := n, h := initialAccumulator, pb := pb, cap := cap }

/-- The engine at a sequencer position. -/
def busyAt (u : MicroStep) (r : BitVec 6) : State := { State.reset with phase := .busy, ustep := u, i := r }

theorem test_start : after (exec .start State.reset) (fun t => (t.phase, t.len, t.h, t.status)) =
    some (.absorb, 0, #v[0x67452301#32, 0xefcdab89#32, 0x98badcfe#32, 0x10325476#32], 0x41#8) := by decide
theorem test_putc_a : after (exec (.putcEnc1 0x61#21) (absorbing 0 [] .unbounded)) (fun t => (t.len, t.pb)) =
    some (1, [(0, 0x61#8)]) := by decide
theorem test_putc_enc2_e9 : after (exec (.putcEnc2 0xE9#21) (absorbing 0 [] .unbounded)) (fun t => (t.len, t.pb)) =
    some (2, [(0, 0xc3#8), (1, 0xa9#8)]) := by decide
theorem test_putc_enc3_20ac : after (exec (.putcEnc3 0x20AC#21) (absorbing 2 [] .unbounded)) (fun t => (t.len, t.pb)) =
    some (5, [(2, 0xe2#8), (3, 0x82#8), (4, 0xac#8)]) := by decide
theorem test_putc_enc4_1f600 : after (exec (.putcEnc4 0x1F600#21) (absorbing 5 [] .unbounded)) (fun t => (t.len, t.pb)) =
    some (9, [(5, 0xf0#8), (6, 0x9f#8), (7, 0x98#8), (8, 0x80#8)]) := by decide
theorem test_putc_enc4_top : utf8Four 0x10FFFF#21 = [0xf4#8, 0x8f#8, 0xbf#8, 0xbf#8] := by decide
theorem test_capacity_64 : after (exec (.putcEnc1 0x61#21) (absorbing 54 [] (.blocks 0))) (·.len) = some 55 ∧
    after (exec (.putcEnc1 0x61#21) (absorbing 55 [] (.blocks 0))) (·.status) = some 0x4c#8 := by decide
theorem test_putc_bad : after (exec (.putcBad 0xD800#21) (absorbing 55 [] (.blocks 0))) (·.status) = some 0x54#8 := by decide
theorem test_putc_bad_in_uninit : after (exec (.putcBad 0xD800#21) State.reset) (·.status) = some 0x5c#8 := by decide
theorem test_finish : after (exec .finish (absorbing 0 [] .unbounded)) (fun t => (t.status, t.ustep)) =
    some (0x02#8, .pad) := by decide
theorem test_finish_in_uninit : after (exec .finish State.reset) (·.status) = some 0x5c#8 := by decide
theorem test_reserved_op0 : after (exec (.reservedOp0 0#21) State.reset) (·.status) = some 0x64#8 := by decide
theorem test_reserved_start_arg : after (exec (.reservedStartArg 1#21) (absorbing 0 [] .unbounded)) (·.status) =
    some 0x64#8 := by decide
theorem test_reserved_finish_arg_ignored_in_fault :
    after (exec (.reservedFinishArg 1#21) { State.reset with phase := .fault, fault := .badScalar }) (·.status) =
      some 0x54#8 := by decide
theorem test_reserved_op4to7_waits_in_busy : after (exec (.reservedOp4to7 5#23) (busyAt .rnd 3#6)) (fun t => (t.cmd, t.status)) =
    some (some 0x800005#24, 0x02#8) := by decide

/-! ### Micro-operations (V3, V7, V11) -/

/-- PAD of `abc` (R107, V3). -/
theorem test_pad_abc :
    after (exec .pad { busyAt .pad 0#6 with len := 3, pb := [(0, 0x61#8), (1, 0x62#8), (2, 0x63#8)] })
      (fun t => (t.nblk, t.ustep, t.blk, t.pb.map Prod.snd)) =
    some (1, .loadw, 0, [0x61#8, 0x62#8, 0x63#8, 0x80#8] ++ List.replicate 52 0x00#8 ++
      [0x18#8, 0#8, 0#8, 0#8, 0#8, 0#8, 0#8, 0#8]) := by decide +kernel

/-- The lengths 55 and 56 of V3. -/
theorem test_padding_boundary : (zeroBytes 55, paddedLength 55) = (0, 64) ∧ (zeroBytes 56, paddedLength 56) = (63, 128) := by decide

/-- The bit length wraps and the padding does not (V3, 2^61 + 1). -/
theorem test_bit_length_wraps : trailerLow (2 ^ 61 + 1) = 8#32 ∧ trailerHigh (2 ^ 61 + 1) = 0#32 ∧ zeroBytes (2 ^ 61 + 1) = 54 := by decide

/-- LOADW of four bytes of `abc` (R111). -/
theorem test_loadw_abc : after (exec .loadw { busyAt .loadw 0#6 with h := initialAccumulator, pb := [(0, 0x61#8), (1, 0x62#8), (2, 0x63#8), (3, 0x80#8)] })
      (fun t => (t.w[0], t.a, t.d, t.ustep, t.i)) =
    some (0x80636261#32, 0x67452301#32, 0x10325476#32, .rnd, 0#6) := by decide

/-- Round 0 of V7. -/
theorem test_rndq0_first_round :
    after (exec (.rndq0 0#4) { busyAt .rnd 0#6 with a := 0x67452301#32, b := 0xefcdab89#32, c := 0x98badcfe#32, d := 0x10325476#32, w := State.reset.w.set 0 0x80#32 })
      (fun t => (t.a, t.b, t.c, t.d, t.i)) =
    some (0x10325476#32, 0xa5202774#32, 0xefcdab89#32, 0x98badcfe#32, 1#6) := by decide

/-- Round 16 of V7. -/
theorem test_rndq1_round_16 :
    after (exec (.rndq1 0#4) { busyAt .rnd 16#6 with a := 0xf56c7cf1#32, b := 0xd6819c6a#32, c := 0x5aa53f75#32, d := 0x374943a7#32, w := State.reset.w.set 0 0x80#32 })
      (fun t => (t.a, t.b, t.c, t.d, t.i)) =
    some (0x374943a7#32, 0x1c7d7513#32, 0xd6819c6a#32, 0x5aa53f75#32, 17#6) := by decide

/-- Round 32 of V7. -/
theorem test_rndq2_round_32 :
    after (exec (.rndq2 0#4) { busyAt .rnd 32#6 with a := 0x13707036#32, b := 0xa2205f1f#32, c := 0x1c31c384#32, d := 0xae7813db#32, w := State.reset.w.set 0 0x80#32 })
      (fun t => (t.a, t.b, t.c, t.d, t.i)) =
    some (0xae7813db#32, 0xdf63eaa1#32, 0xa2205f1f#32, 0x1c31c384#32, 33#6) := by decide

/-- Round 48 of V7. -/
theorem test_rndq3_round_48 :
    after (exec (.rndq3 0#4) { busyAt .rnd 48#6 with a := 0x3f55edfd#32, b := 0xca7d2dbd#32, c := 0x68d84ea2#32, d := 0x22a31f54#32, w := State.reset.w.set 0 0x80#32 })
      (fun t => (t.a, t.b, t.c, t.d, t.i)) =
    some (0x22a31f54#32, 0x93aa2577#32, 0xca7d2dbd#32, 0x68d84ea2#32, 49#6) := by decide

/-- Round 63 of V7: the sequencer goes to FOLD. -/
theorem test_rndq3_round_63 :
    after (exec (.rndq3 15#4) { busyAt .rnd 63#6 with a := 0x30130182#32, b := 0xff4ea3eb#32, c := 0x6e10a476#32, d := 0x7246fad3#32 })
      (fun t => (t.a, t.b, t.c, t.d, t.ustep)) =
    some (0x7246fad3#32, 0x14e45506#32, 0xff4ea3eb#32, 0x6e10a476#32, .fold) := by decide

/-- FOLD drops the carries (V11, wrap-around) and goes to SER after the last block. -/
theorem test_fold_wraps :
    after (exec .fold { busyAt .fold 0#6 with nblk := 1, h := #v[0xffffffff#32, 1#32, 0x80000000#32, 0#32], a := 1#32, b := 0xffffffff#32, c := 0x80000000#32, d := 0#32 })
      (fun t => (t.h, t.ustep)) = some (#v[0#32, 0#32, 0#32, 0#32], .ser) := by decide

/-- FOLD goes to the next block while there is one (R120). -/
theorem test_fold_next_block : after (exec .fold { busyAt .fold 0#6 with nblk := 2 }) (fun t => (t.blk, t.ustep)) =
    some (1, .loadw) := by decide

/-- SER (V11, first row). -/
theorem test_ser : after (exec .ser { busyAt .ser 0#6 with h := initialAccumulator }) (fun t => (t.digest, t.status)) =
    some (#v[0x01#8, 0x23#8, 0x45#8, 0x67#8, 0x89#8, 0xab#8, 0xcd#8, 0xef#8, 0xfe#8, 0xdc#8, 0xba#8, 0x98#8, 0x76#8, 0x54#8, 0x32#8, 0x10#8], 0xc3#8) := by decide

/-! ### The step -/

theorem test_step_issues_start : after (step { State.reset with host := [.issue 0x200000#24] }) (fun t => (t.status, t.host)) =
    some (0x41#8, []) := by decide
theorem test_step_reads_status : after (step { State.reset with host := [.readStatus] }) (·.reads) = some [.status 0x40#8] := by decide
theorem test_step_reset_in_busy : after (step { busyAt .rnd 5#6 with host := [.reset], cmd := some 0x200000#24 }) (fun t => (t.status, t.cmd)) =
    some (0x40#8, none) := by decide
theorem test_placed_loadw_runs_after_reset : after (step (State.reset.withFetchWord 16 0x040)) (fun t => (t.ustep, t.i)) =
    some (.rnd, 0#6) := by decide

/-- S1: the digest of the empty string. -/
theorem test_digest_of_empty_string : digestOf [] = #v[0xd4#8, 0x1d#8, 0x8c#8, 0xd9#8, 0x8f#8, 0x00#8, 0xb2#8, 0x04#8,
    0xe9#8, 0x80#8, 0x09#8, 0x98#8, 0xec#8, 0xf8#8, 0x42#8, 0x7e#8] := by decide +kernel

/-! ### Witnesses: the hypotheses of the statements can be met -/

theorem witness_wellFormed : (Instr.putcEnc4 0x10FFFF#21).wellFormed = true := by decide
theorem witness_decode_ok : decode (.useq 0b010111111#9) = .ok (.rndq3 15#4) := by rfl

/-- SequencerPositionDecodes, each clause at its bounds. -/
theorem witness_quarters : microOp .rnd 0#6 = .rndq0 0#4 ∧ microOp .rnd 15#6 = .rndq0 15#4 ∧ microOp .rnd 16#6 = .rndq1 0#4 ∧
    microOp .rnd 31#6 = .rndq1 15#4 ∧ microOp .rnd 32#6 = .rndq2 0#4 ∧ microOp .rnd 47#6 = .rndq2 15#4 ∧
    microOp .rnd 48#6 = .rndq3 0#4 ∧ microOp .rnd 63#6 = .rndq3 15#4 := by decide

/-- StepRunsDecodedInstruction and CommandWaitsInBusy: one state for each clause. -/
theorem witness_step_clauses :
    (∃ s : State, s.host = .issue 0x200000#24 :: [] ∧ s.cmd = none) ∧ (∃ s : State, s.phase = .busy ∧ s.host = []) ∧
    (∃ s : State, s.phase = .busy ∧ s.host = .yield :: []) ∧ (∃ s : State, s.phase = .busy ∧ s.host = .wait :: []) ∧
    (∃ s : State, s.phase = .busy ∧ s.host = .issue 0x600000#24 :: [] ∧ s.cmd = some 0x200000#24) ∧
    (∃ s : State, s.phase ≠ .busy ∧ s.cmd = some 0x200000#24 ∧ s.host = []) ∧
    (∃ s : State, s.phase ≠ .busy ∧ s.cmd = none ∧ s.host = []) :=
  ⟨⟨{ State.reset with host := [.issue 0x200000#24] }, rfl, rfl⟩, ⟨busyAt .pad 0#6, rfl, rfl⟩,
    ⟨{ busyAt .pad 0#6 with host := [.yield] }, rfl, rfl⟩, ⟨{ busyAt .pad 0#6 with host := [.wait] }, rfl, rfl⟩,
    ⟨{ busyAt .pad 0#6 with host := [.issue 0x600000#24], cmd := some 0x200000#24 }, rfl, rfl, rfl⟩,
    ⟨{ State.reset with cmd := some 0x200000#24 }, by decide, rfl, rfl⟩, ⟨State.reset, by decide, rfl, rfl⟩⟩

/-- CommandWaitsInBusy: a command, a busy engine and a free port; and a step of a busy engine whose port is taken. -/
theorem witness_command_waits :
    (Instr.start.commandRow.isSome = true ∧ (busyAt .pad 0#6).phase = .busy ∧ (busyAt .pad 0#6).cmd = none) ∧
    after (step { busyAt .ser 0#6 with cmd := some 0x200000#24 }) (·.cmd) = some (some 0x200000#24) := by decide

theorem witness_placed_words : decodeTableWord 24 0xffffff = some (.reservedOp4to7 0x7fffff#23) ∧
    decodeTableWord 16 0x100 = some .ser := by decide

/-- LeftRotationByFormula: the two amount clauses at 31, 32 and 33. -/
theorem witness_rotation_amounts : 32 % 32 = 0 ∧ 31 % 32 ≠ 0 ∧ 33 % 32 ≠ 0 := by decide

/-- PaddingSizes: the two length clauses at their bounds. -/
theorem witness_padding_lengths : 55 % 64 ≤ 55 ∧ 55 < 56 % 64 ∧ 55 < 63 % 64 ∧ 64 % 64 ≤ 55 ∧ 55 + 9 ≤ 64 * 1 := by decide

theorem witness_start_phases : State.reset.phase ≠ .busy ∧ ({ State.reset with phase := .done } : State).phase ≠ .busy := by decide

/-- The PUTC statements: each form at both ends of its range, with room for exactly the bytes. -/
theorem witness_putc_forms :
    (inForm 1 0#21 ∧ inForm 1 0x7F#21 ∧ capacityFits (absorbing 54 [] (.blocks 0)).cap (54 + 1 + 9) = true) ∧
    (inForm 2 0x80#21 ∧ inForm 2 0x7FF#21 ∧ capacityFits (absorbing 53 [] (.blocks 0)).cap (53 + 2 + 9) = true) ∧
    (inForm 3 0x800#21 ∧ inForm 3 0xD7FF#21 ∧ inForm 3 0xE000#21 ∧ inForm 3 0xFFFF#21 ∧
      capacityFits (absorbing 52 [] (.blocks 0)).cap (52 + 3 + 9) = true) ∧
    (inForm 4 0x10000#21 ∧ inForm 4 0x10FFFF#21 ∧ capacityFits (absorbing 51 [] (.blocks 0)).cap (51 + 4 + 9) = true) ∧
    (absorbing 54 [] (.blocks 0)).phase = .absorb := by
  refine ⟨⟨?_, ?_, ?_⟩, ⟨?_, ?_, ?_⟩, ⟨?_, ?_, ?_, ?_, ?_⟩, ⟨?_, ?_, ?_⟩, ?_⟩ <;> first | decide | (simp only [inForm]; decide)

/-- OverfullPutcRaisesAlloc: one byte too many, an unbounded buffer, and a FINISH that keeps an ALLOC cause. -/
theorem witness_overfull : capacityFits (absorbing 55 [] (.blocks 0)).cap (55 + 1 + 9) = false ∧
    (absorbing 55 [] .unbounded).cap = .unbounded ∧
    after (exec .finish { State.reset with phase := .fault, fault := .alloc }) (·.fault) = some .alloc := by decide

/-- PutcOfNonScalarRaisesBadScalar: the ends of both ranges. -/
theorem witness_non_scalars : notScalar 0xD800#21 ∧ notScalar 0xDFFF#21 ∧ notScalar 0x110000#21 ∧ notScalar 0x1FFFFF#21 ∧
    (absorbing 0 [] .unbounded).phase = .absorb := by
  refine ⟨?_, ?_, ?_, ?_, ?_⟩ <;> first | decide | (simp only [notScalar]; decide)

theorem witness_accepting_phases : acceptingPhase State.reset.phase ∧ acceptingPhase (absorbing 0 [] .unbounded).phase ∧
    acceptingPhase ({ State.reset with phase := .done } : State).phase :=
  ⟨.inl rfl, .inr (.inl rfl), .inr (.inr rfl)⟩

/-- ReservedWordRaisesIllegalCmd and FaultPriority: a word under each clause of `illegal`. -/
theorem witness_illegal_words : 0x1FFFFF / 2 ^ 21 = 0 ∧ 4 ≤ 0x800000 / 2 ^ 21 ∧ (0x200001 / 2 ^ 21 = 1 ∧ 0x200001 % 2 ^ 21 ≠ 0) ∧
    (0x600001 / 2 ^ 21 = 3 ∧ 0x600001 % 2 ^ 21 ≠ 0) := by decide

/-- FaultPriority: PROTOCOL for a word that would be BAD_SCALAR, BAD_SCALAR with the buffer full, ALLOC, and no fault. -/
theorem witness_fault_priority :
    (0x40d800 / 2 ^ 21 = 2 ∧ 0x40d800 % 2 ^ 21 = 0xD800 ∧ State.reset.phase ≠ .absorb) ∧
    capacityFits (absorbing 55 [] (.blocks 0)).cap (55 + 3 + 9) = false ∧
    (0x400061 / 2 ^ 21 = 2 ∧ 0x400061 % 2 ^ 21 = 0x61 ∧ capacityFits (absorbing 55 [] (.blocks 0)).cap (55 + 1 + 9) = false) ∧
    capacityFits (absorbing 54 [] (.blocks 0)).cap (54 + 1 + 9) = true := by decide

theorem witness_fault_ignores : Instr.finish.commandRow.isSome = true ∧ Instr.finish ≠ .start ∧
    ({ State.reset with phase := .fault, fault := .alloc } : State).phase = .fault := by decide

theorem witness_pad : (busyAt .pad 0#6).phase = .busy ∧ (busyAt .pad 0#6).ustep = .pad ∧
    capacityFits ({ busyAt .pad 0#6 with len := 55, cap := .blocks 0 } : State).cap (55 + 9) = true := by decide
theorem witness_loadw : (busyAt .loadw 0#6).phase = .busy ∧ (busyAt .loadw 0#6).ustep = .loadw ∧
    capacityFits ({ busyAt .loadw 0#6 with cap := .blocks 0 } : State).cap (64 * 0 + 64) = true := by decide

/-- The four round statements at the ends of their ranges. -/
theorem witness_rounds : (∀ i ∈ [0, 15, 16, 31, 32, 47, 48, 62, 63], (busyAt .rnd (BitVec.ofNat 6 i)).i = BitVec.ofNat 6 i) ∧
    (busyAt .rnd 0#6).phase = .busy ∧ (busyAt .rnd 0#6).ustep = .rnd := by decide

/-- FoldAddsWorkingVariables: a next block, and the last block. -/
theorem witness_fold : (busyAt .fold 0#6).phase = .busy ∧ (busyAt .fold 0#6).ustep = .fold ∧
    ({ busyAt .fold 0#6 with nblk := 2 } : State).blk + 1 < 2 ∧ ({ busyAt .fold 0#6 with nblk := 1 } : State).nblk ≤ 0 + 1 := by decide
theorem witness_ser : (busyAt .ser 0#6).phase = .busy ∧ (busyAt .ser 0#6).ustep = .ser := by decide
theorem witness_disabled_micro_op : Instr.pad.microRow.isSome = true ∧
    ¬ (State.reset.phase = .busy ∧ microOp State.reset.ustep State.reset.i = .pad) := by decide

/-- PortReadsChangeNothing, ResetInAnyPhase: a state for each move, in DONE and outside it. -/
theorem witness_host_moves : ({ State.reset with host := [.readStatus] } : State).host = [.readStatus] ∧
    ({ State.reset with host := [.readDigest 15#4], phase := .done } : State).phase = .done ∧
    ({ State.reset with host := [.readDigest 0#4] } : State).phase ≠ .done ∧
    ({ busyAt .rnd 5#6 with host := [.reset] } : State).host = [.reset] := by decide

/-- PhaseFollowsTransitionTable, CapacityIsNeverWritten: steps that answer a next state. -/
theorem witness_step_next : after (step State.reset) (·.phase) = some .uninit ∧
    after (step (busyAt .ser 0#6)) (·.phase) = some .done := by decide

/-- OnlyStartOrResetLeavesFault: each of its ends. -/
theorem witness_leaving_fault :
    after (step { State.reset with phase := .fault, fault := .alloc, host := [.issue 0x600000#24] }) (·.fault) = some .alloc ∧
    after (step { State.reset with phase := .fault, fault := .alloc, host := [.issue 0x200000#24] }) (·.phase) = some .absorb ∧
    after (step { State.reset with phase := .fault, fault := .alloc, cmd := some 0x200000#24 }) (·.phase) = some .absorb ∧
    after (step { State.reset with phase := .fault, fault := .alloc, host := [.reset] }) (·.phase) = some .uninit := by decide

/-- DigestComesOnlyFromSer: both of its ends. -/
theorem witness_digest : after (step (busyAt .ser 0#6)) (·.phase) = some .done ∧
    after (step { State.reset with phase := .done }) (·.phase) = some .done := by decide

/-- An open, empty call meets the invariant. -/
theorem witness_invariant : (absorbing 0 [] (.blocks 0)).Inv where
  canonical := rfl
  cause := by decide
  absorbing _ := ⟨rfl, rfl, fun _ h => absurd h (Nat.not_lt_zero _)⟩
  padding h := absurd h (by decide)
  compressing h := absurd h (by decide)
  block h := absurd h (by decide)
  firstBlock h := absurd h (by decide)

/-- A busy engine before PAD meets the invariant. -/
theorem witness_invariant_busy : ({ absorbing 0 [] (.blocks 0) with phase := .busy } : State).Inv where
  canonical := rfl
  cause := by decide
  absorbing h := absurd h (by decide)
  padding _ _ := ⟨rfl, rfl, fun _ h => absurd h (Nat.not_lt_zero _)⟩
  compressing _ h := absurd rfl h
  block _ h := absurd h (by decide)
  firstBlock _ h := absurd h (by decide)

/-- The empty message after PAD, at LOADW of its one block. -/
def paddedEmpty : State :=
  { absorbing 0 (padBuffer (absorbing 0 [] (.blocks 0))).pb (.blocks 0) with phase := .busy, ustep := .loadw, nblk := 1 }

/-- LoadwExpandsBlock: an invariant state at LOADW whose block is the first and the last. -/
theorem witness_invariant_loadw : paddedEmpty.Inv ∧ paddedEmpty.phase = .busy ∧ paddedEmpty.ustep = .loadw ∧
    paddedEmpty.blk = 0 ∧ paddedEmpty.blk + 1 = paddedEmpty.nblk := by
  refine ⟨⟨by decide +kernel, by decide, fun h => absurd h (by decide), fun _ h => absurd h (by decide),
    fun _ _ => ⟨rfl, rfl, ?_, ?_⟩, fun _ _ => by decide, fun _ _ _ => rfl⟩, rfl, rfl, rfl, rfl⟩
  · show ∀ addr, addr < 64 → _
    decide +kernel
  · show ∀ k, k < 8 → _
    decide +kernel

/-- StepKeepsInvariant, FinishEndsInDone: from those states a step, and FINISH, answer a next state. -/
theorem witness_invariant_steps : after (step (absorbing 0 [] (.blocks 0))) (·.phase) = some .absorb ∧
    after (exec .finish (absorbing 0 [] (.blocks 0))) (·.phase) = some .busy ∧ (absorbing 0 [] (.blocks 0)).host = [] := by decide

/-- UnspecifiedStateIsNeverObserved: two states after reset that differ in hidden registers. -/
theorem witness_hidden_difference : ∃ s s' : State, s ≠ s' ∧ s.cap = s'.cap ∧ s.phase = s'.phase ∧ s.phase = .uninit ∧
    s.fault = s'.fault ∧ s.cmd = s'.cmd ∧ s.host = s'.host ∧ s.reads = s'.reads :=
  ⟨State.reset, { State.reset with a := 1#32, len := 7 }, by decide, rfl, rfl, rfl, rfl, rfl, rfl, rfl⟩

/-- BlockFunctionInSixtySixSteps: the schedule a block's bytes spell, over an empty capacity-64 buffer. -/
theorem witness_block : ∃ (s : State) (w : Vector Word 16), s.phase = .busy ∧ s.ustep = .loadw ∧ s.host = [] ∧
    capacityFits s.cap (64 * s.blk + 64) = true ∧ ∀ j : Fin 16, w[j] = memRead4 s (64 * s.blk + 4 * j) :=
  ⟨{ busyAt .loadw 0#6 with cap := .blocks 0 },
    Vector.ofFn fun j => memRead4 { busyAt .loadw 0#6 with cap := .blocks 0 } (64 * (busyAt .loadw 0#6).blk + 4 * j),
    rfl, rfl, rfl, rfl, fun j => by simp⟩

/-- WholeCallComputesDigest: a state right after reset whose host hands over the string "a". -/
theorem witness_whole_call : ∃ s : State, s.phase ≠ .busy ∧ s.cmd = none ∧ (∀ cp ∈ [0x61#21], isScalar cp = true) ∧
    capacityFits s.cap ((message [0x61#21]).length + 9) = true ∧
    s.host = .issue 0x200000#24 :: ([0x61#21].map (fun cp => HostMove.issue (commandWord 2#3 cp)) ++ .issue 0x600000#24 :: .wait :: []) :=
  ⟨{ State.reset with host := [.issue 0x200000#24, .issue 0x400061#24, .issue 0x600000#24, .wait] }, by decide, rfl,
    by simp [isScalar, isSurrogate], rfl, rfl⟩

theorem witness_message_strings : (∀ cp ∈ [0xE9#21, 0x1F600#21], isScalar cp = true) ∧
    message [0xE9#21, 0x1F600#21] = message [0xE9#21, 0x1F600#21] := ⟨by simp [isScalar, isSurrogate], rfl⟩

end Sys2Proof.Tests
end

section
/-! PROOFS. Words (00_scope.md R10, R13). -/

namespace Sys2Proof.Machine

/-- Settles O8: `add32` is addition of 32-bit vectors. -/
theorem additionIsModulo32Bits : Obligations.AdditionIsModulo32Bits :=
  fun x y z => ⟨BitVec.toNat_add x y, BitVec.add_comm x y, BitVec.add_assoc x y z⟩

/-! ### Rotation (R13) -/

/-- The two halves of a rotation do not overlap, so their union is their sum. -/
theorem shift_mod_or_eq_add {w s : Nat} (hs : s ≤ w) (x : Nat) (hx : x < 2 ^ w) :
    x * 2 ^ s % 2 ^ w ||| x / 2 ^ (w - s) = x * 2 ^ s % 2 ^ w + x / 2 ^ (w - s) := by
  have hw : 2 ^ w = 2 ^ s * 2 ^ (w - s) := by rw [← pow_add, Nat.add_sub_cancel' hs]
  have hhigh : x * 2 ^ s % 2 ^ w = 2 ^ s * (x % 2 ^ (w - s)) := by
    rw [hw, Nat.mul_comm x, Nat.mul_mod_mul_left]
  have hlow : x / 2 ^ (w - s) < 2 ^ s := Nat.div_lt_of_lt_mul (by rwa [Nat.mul_comm, ← hw])
  rw [hhigh, Nat.two_pow_add_eq_or_of_lt hlow]

theorem toNat_rotl32 (x : Word) (n : Nat) :
    (rotl32 x n).toNat = x.toNat * 2 ^ (n % 32) % 2 ^ 32 + x.toNat / 2 ^ (32 - n % 32) := by
  have hs : n % 32 < 32 := Nat.mod_lt n (by decide)
  rw [rotl32, BitVec.toNat_rotateLeft, Nat.mod_mod, Nat.shiftLeft_eq, Nat.shiftRight_eq_div_pow,
    shift_mod_or_eq_add hs.le x.toNat x.isLt]

theorem rotl32_mod (x : Word) (n : Nat) : rotl32 x (n % 32) = rotl32 x n := by
  rw [rotl32, Nat.mod_mod, rotl32]

theorem rotl32_of_mod_eq_zero {n : Nat} (h : n % 32 = 0) (x : Word) : rotl32 x n = x := by
  apply BitVec.eq_of_toNat_eq
  have hx := x.isLt
  rw [toNat_rotl32, h]
  omega

/-- Bit `k` moves to bit `(k + s) mod 32`: upwards below the top, around to the low bits above it. -/
theorem getLsbD_rotl32 (x : Word) (n : Nat) {k : Nat} (hk : k < 32) :
    (rotl32 x n).getLsbD ((k + n % 32) % 32) = x.getLsbD k := by
  have hs : n % 32 < 32 := Nat.mod_lt n (by decide)
  rw [rotl32, BitVec.getLsbD_rotateLeft_of_le hs]
  by_cases hwrap : k + n % 32 < 32
  · have hup : (k + n % 32) % 32 = k + n % 32 := Nat.mod_eq_of_lt hwrap
    simp [hup, hwrap]
  · have haround : (k + n % 32) % 32 = k + n % 32 - 32 := by omega
    have hlow : k + n % 32 - 32 < n % 32 := by omega
    have hback : 32 - n % 32 + (k + n % 32 - 32) = k := by omega
    simp [haround, hlow, hback]

theorem rotationAmount_bounds (r : BitVec 6) : 4 ≤ rotationAmount r ∧ rotationAmount r ≤ 23 := by
  revert r
  decide

/-- Settles O9: the value, the amount and the bits of a rotation, each from its own lemma. -/
theorem leftRotationByFormula : Obligations.LeftRotationByFormula :=
  ⟨fun x n => ⟨fun h => rotl32_of_mod_eq_zero h x, fun _ => toNat_rotl32 x n, (rotl32_mod x n).symm,
    fun _ hk => getLsbD_rotl32 x n hk⟩, rotationAmount_bounds⟩

end Sys2Proof.Machine
end

section
/-! PROOFS. What a step does on each kind of turn (00_scope.md R16, 10_state.md R27, 44_host_interface.md R137). -/

namespace Sys2Proof.Machine

/-! ### The engine's own event -/

theorem engineEvent_busy {s : State} (hp : s.phase = .busy) : engineEvent s = .run (microOp s.ustep s.i) s := if_pos hp

theorem engineEvent_waiting {s : State} {v : BitVec 24} (hp : s.phase ≠ .busy) (hc : s.cmd = some v) :
    engineEvent s = .run (decodeCommand v) { s with cmd := none } := by
  simp only [engineEvent, hp, if_false, hc]

theorem engineEvent_idle {s : State} (hp : s.phase ≠ .busy) (hc : s.cmd = none) : engineEvent s = .answer (.next s) := by
  simp only [engineEvent, hp, if_false, hc]

/-! ### Whose turn it is -/

theorem nextEvent_no_move {s : State} (hh : s.host = []) : nextEvent s = engineEvent s := by
  simp only [nextEvent, hh]

theorem nextEvent_yield {s : State} {rest : List HostMove} (hh : s.host = .yield :: rest) :
    nextEvent s = engineEvent { s with host := rest } := by
  simp only [nextEvent, hh]

theorem nextEvent_wait_busy {s : State} {rest : List HostMove} (hh : s.host = .wait :: rest) (hp : s.phase = .busy) :
    nextEvent s = engineEvent s := by
  simp only [nextEvent, hh, hp, if_true]

theorem nextEvent_issue_free {s : State} {w : BitVec 24} {rest : List HostMove} (hh : s.host = .issue w :: rest)
    (hc : s.cmd = none) : nextEvent s = .run (decodeCommand w) { s with host := rest } := by
  simp only [nextEvent, hh, hc]

theorem nextEvent_issue_taken {s : State} {w v : BitVec 24} {rest : List HostMove} (hh : s.host = .issue w :: rest)
    (hc : s.cmd = some v) : nextEvent s = engineEvent s := by
  simp only [nextEvent, hh, hc]

/-! ### The step of an event -/

theorem step_of_run {s t : State} {i : Instr} (h : nextEvent s = .run i t) : step s = exec i t := by
  simp only [step, h]

theorem step_of_answer {s : State} {r : Result} (h : nextEvent s = .answer r) : step s = r := by
  simp only [step, h]

/-- The engine's turn in BUSY, at the state with the move taken. -/
theorem step_of_busy_turn {s u : State} (h : nextEvent s = engineEvent u) (hp : u.phase = .busy) :
    step s = exec (microOp u.ustep u.i) u :=
  step_of_run (h.trans (engineEvent_busy hp))

/-- Settles O6, one clause per kind of turn. -/
theorem stepRunsDecodedInstruction : Obligations.StepRunsDecodedInstruction := by
  refine ⟨?issue, ?noMove, ?yield, ?wait, ?taken, ?waiting, ?idle⟩
  case issue => exact fun s w rest hh hc => ⟨rfl, step_of_run (nextEvent_issue_free hh hc)⟩
  case noMove => exact fun s hp hh => step_of_busy_turn (nextEvent_no_move hh) hp
  case yield => exact fun s rest hp hh => step_of_busy_turn (nextEvent_yield hh) hp
  case wait => exact fun s rest hp hh => step_of_busy_turn (nextEvent_wait_busy hh hp) hp
  case taken => exact fun s w v rest hp hh hc => step_of_busy_turn (nextEvent_issue_taken hh hc) hp
  case waiting =>
    exact fun s v hp hc hh => step_of_run ((nextEvent_no_move hh).trans (engineEvent_waiting hp hc))
  case idle =>
    exact fun s hp hc hh => step_of_answer ((nextEvent_no_move hh).trans (engineEvent_idle hp hc))

end Sys2Proof.Machine
end

section
/-! PROOFS. What no instruction writes: the capacity (00_scope.md R8), the host's moves and the port reads. -/

namespace Sys2Proof.Machine

/-- `t` has the capacity, the coming host moves and the port reads of `s`. -/
structure SameSurroundings (s t : State) : Prop where
  cap : t.cap = s.cap
  host : t.host = s.host
  reads : t.reads = s.reads

theorem raiseFault_surroundings (why : FaultCause) (s : State) : SameSurroundings s (raiseFault why s) :=
  ⟨rfl, rfl, rfl⟩

theorem holdWord_surroundings (code : CodeWord) (s : State) : SameSurroundings s (holdWord code s) := by
  obtain ⟨c, he, _⟩ := holdWord_eq code s
  rw [he]
  exact ⟨rfl, rfl, rfl⟩

theorem startCall_surroundings (s : State) : SameSurroundings s (startCall s) :=
  ⟨startCall_cap s, startCall_host s, startCall_reads s⟩

theorem execStart_surroundings {s t : State} (h : execStart s = .next t) : SameSurroundings s t := by
  by_cases hp : s.phase = .busy
  · simp only [execStart, hp] at h
    cases h
    exact holdWord_surroundings (encode .start) s
  · cases (execStart_accepts hp).symm.trans h
    exact startCall_surroundings s

theorem appendBytes_surroundings (bytes : List Byte) (s : State) : SameSurroundings s (appendBytes bytes s) := by
  obtain ⟨_, he⟩ | ⟨_, he⟩ := appendBytes_cases bytes s <;> rw [he]
  · exact ⟨rfl, rfl, rfl⟩
  · exact raiseFault_surroundings .alloc s

/-- A command other than START keeps the surroundings if what it does when accepted keeps them. -/
theorem command_surroundings {code : CodeWord} {s t : State} {r : Result} (h : command code s r = .next t)
    (hr : r = .next t → SameSurroundings s t) : SameSurroundings s t := by
  obtain ⟨_, rfl⟩ | ⟨_, rfl⟩ | ⟨_, _, h⟩ := command_next h
  · exact holdWord_surroundings code s
  · exact ⟨rfl, rfl, rfl⟩
  · exact hr h

/-- PUTC and FINISH keep the surroundings if what they do in ABSORB keeps them. -/
theorem callCommand_surroundings {code : CodeWord} {s t u : State} (h : command code s (inAbsorb s (.next u)) = .next t)
    (hu : SameSurroundings s u) : SameSurroundings s t := by
  refine command_surroundings h fun h => ?_
  obtain ⟨_, h⟩ | ⟨_, rfl⟩ := inAbsorb_next h
  · cases h
    exact hu
  · exact raiseFault_surroundings .protocol s

theorem illegal_surroundings {code : CodeWord} {s t : State}
    (h : command code s (.next (raiseFault .illegalCmd s)) = .next t) : SameSurroundings s t :=
  command_surroundings h fun h => by
    cases h
    exact raiseFault_surroundings .illegalCmd s

/-- A round keeps the surroundings if the sequencer's move after it does. -/
theorem roundOf_surroundings {f : Word} {g : Fin 16} {r : BitVec 6} {s t : State} {next : State → State}
    (h : roundOf f g r s next = .next t) (hn : ∀ u, SameSurroundings s u → SameSurroundings s (next u)) :
    SameSurroundings s t := by
  obtain ⟨_, _, _, rfl⟩ := roundOf_next h
  exact hn _ ⟨rfl, rfl, rfl⟩

/-- No instruction writes the capacity, the host's moves or the port reads. -/
theorem exec_surroundings {i : Instr} {s t : State} (h : exec i s = .next t) : SameSurroundings s t := by
  cases i with
  | start => exact execStart_surroundings h
  | putcEnc1 | putcEnc2 | putcEnc3 | putcEnc4 => exact callCommand_surroundings h (appendBytes_surroundings _ s)
  | putcBad => exact callCommand_surroundings h (raiseFault_surroundings .badScalar s)
  | finish => exact callCommand_surroundings h ⟨rfl, rfl, rfl⟩
  | reservedOp0 | reservedStartArg | reservedFinishArg | reservedOp4to7 => exact illegal_surroundings h
  | pad =>
    obtain ⟨_, h⟩ := enabledAt_next h
    obtain ⟨_, rfl⟩ := withinBuffer_next h
    exact ⟨padBuffer_cap s, padBuffer_host s, padBuffer_reads s⟩
  | loadw =>
    obtain ⟨_, h⟩ := enabledAt_next h
    obtain ⟨_, rfl⟩ := withinBuffer_next h
    exact ⟨loadBlock_cap s, loadBlock_host s, loadBlock_reads s⟩
  | rndq0 | rndq1 | rndq2 => exact roundOf_surroundings h fun _ hu => ⟨hu.cap, hu.host, hu.reads⟩
  | rndq3 =>
    simp only [exec, execRndq3] at h
    refine roundOf_surroundings h fun u hu => ?_
    split <;> exact ⟨hu.cap, hu.host, hu.reads⟩
  | fold =>
    obtain ⟨_, h⟩ := enabledAt_next h
    cases h
    split <;> exact ⟨rfl, rfl, rfl⟩
  | ser =>
    obtain ⟨_, h⟩ := enabledAt_next h
    cases h
    exact ⟨rfl, rfl, rfl⟩

/-- Settles O45: an instruction keeps the capacity, and so does every answer to the host. -/
theorem capacityIsNeverWritten : Obligations.CapacityIsNeverWritten := by
  intro s t h
  obtain ⟨i, u, ⟨⟨host, cmd, rfl⟩, _⟩, h⟩ | ⟨host, rfl⟩ | ⟨rest, _, rfl⟩ | ⟨j, rest, _, h⟩ | ⟨rest, _, rfl⟩ :=
    step_next_cases h
  · exact (exec_surroundings h).cap
  · rfl
  · rfl
  · rw [(readDigest_next h).2]
  · rfl

end Sys2Proof.Machine
end

section
/-! PROOFS. The bytes PAD leaves in the buffer (30_encoding.md R78, 41_padder.md R104, R105, R107). -/

namespace Sys2Proof.Machine

theorem paddedLength_eq_blocks (l : Nat) : paddedLength l = 64 * ((l + 8) / 64 + 1) := by
  unfold paddedLength zeroBytes
  omega

/-- The four writes of PAD: each begins where the one before ends. -/
theorem padBuffer_eq_writes (s : State) :
    padBuffer s =
      memWriteBytes (memWriteBytes (memWriteBytes (memWriteBytes s s.len [0x80#8])
        (s.len + 1) (List.replicate (zeroBytes s.len) 0x00#8))
        (s.len + 1 + zeroBytes s.len) (wordBytes (trailerLow s.len)))
        (s.len + 1 + zeroBytes s.len + 4) (wordBytes (trailerHigh s.len)) :=
  rfl

@[simp] theorem length_wordBytes (v : Word) : (wordBytes v).length = 4 := rfl

theorem getElem?_wordBytes (v : Word) {k : Nat} (hk : k < 4) : (wordBytes v)[k]? = some (wordByte v k) := by
  obtain rfl | rfl | rfl | rfl : k = 0 ∨ k = 1 ∨ k = 2 ∨ k = 3 := by omega
  all_goals rfl

/-! ### The trailer -/

theorem lengthByte_eq_extractLsb' (l k : Nat) : lengthByte l k = (bitLength l).extractLsb' (8 * k) 8 := by
  apply BitVec.eq_of_toNat_eq
  simp [lengthByte, bitLength, Nat.shiftRight_eq_div_pow]

/-- A field of a field is a field. -/
theorem extractLsb'_of_extractLsb' {n m len k : Nat} (h : k + len ≤ m) (x : BitVec n) (a : Nat) :
    (x.extractLsb' a m).extractLsb' k len = x.extractLsb' (a + k) len := by
  apply BitVec.eq_of_getLsbD_eq
  intro j hj
  have hin : k + j < m := by omega
  simp [hj, hin, Nat.add_assoc]

/-- Byte `k` of the low word of the trailer. -/
theorem wordByte_trailerLow (l : Nat) {k : Nat} (hk : k < 4) : wordByte (trailerLow l) k = lengthByte l k := by
  rw [lengthByte_eq_extractLsb', wordByte, trailerLow, extractLsb'_of_extractLsb' (by omega), Nat.zero_add]

/-- Byte `k` of the high word of the trailer. -/
theorem wordByte_trailerHigh (l : Nat) {k : Nat} (hk : k < 4) : wordByte (trailerHigh l) k = lengthByte l (4 + k) := by
  rw [lengthByte_eq_extractLsb', wordByte, trailerHigh, extractLsb'_of_extractLsb' (by omega), Nat.mul_add]

/-- The two words of the trailer end the last block (R107). -/
theorem padBuffer_endsInLength (s : State) : endsInLength (padBuffer s).pb ((s.len + 8) / 64 + 1) s.len := by
  intro k hk
  have hbase : 64 * ((s.len + 8) / 64 + 1) - 8 = s.len + 1 + zeroBytes s.len := by
    rw [← paddedLength_eq_blocks, paddedLength, Nat.add_sub_cancel]
  rw [hbase, padBuffer_eq_writes, memWriteBytes_pb, cellAt_putCells, length_wordBytes]
  generalize s.len + 1 + zeroBytes s.len = base
  by_cases hlow : k < 4
  · have hout : ¬ (base + 4 ≤ base + k ∧ base + k < base + 4 + 4) := by omega
    have hin : base ≤ base + k ∧ base + k < base + 4 := by omega
    rw [if_neg hout, memWriteBytes_pb, cellAt_putCells, length_wordBytes, if_pos hin, Nat.add_sub_cancel_left,
      getElem?_wordBytes _ hlow, wordByte_trailerLow _ hlow]
  · obtain ⟨m, rfl⟩ : ∃ m, k = 4 + m := ⟨k - 4, by omega⟩
    have hm : m < 4 := by omega
    have hin : base + 4 ≤ base + (4 + m) ∧ base + (4 + m) < base + 4 + 4 := by omega
    rw [if_pos hin, ← Nat.add_assoc, Nat.add_sub_cancel_left, getElem?_wordBytes _ hm, wordByte_trailerHigh _ hm]

/-! ### Every byte of the padded buffer is written -/

/-- A write where the written bytes end lengthens them. -/
theorem written_memWriteBytes {s : State} {n : Nat} (h : written s n) (bytes : List Byte) :
    written (memWriteBytes s n bytes) (n + bytes.length) := by
  intro x hx
  refine isSome_cellAt_putCells s.pb n x bytes ?_
  by_cases hold : x < n
  · exact .inl (h x hold)
  · exact .inr ⟨Nat.le_of_not_lt hold, hx⟩

/-- PAD leaves no gap from the message to the end of the last block (R107). -/
theorem padBuffer_written {s : State} (h : written s s.len) : written (padBuffer s) (paddedLength s.len) := by
  have hmark := written_memWriteBytes h [0x80#8]
  have hzeros := written_memWriteBytes hmark (List.replicate (zeroBytes s.len) 0x00#8)
  rw [List.length_replicate] at hzeros
  have hlow := written_memWriteBytes hzeros (wordBytes (trailerLow s.len))
  have hhigh := written_memWriteBytes hlow (wordBytes (trailerHigh s.len))
  rw [padBuffer_eq_writes]
  exact hhigh

end Sys2Proof.Machine
end

section
/-! PROOFS. The invariant (10_state.md R20, R28, R29, R32, R40): what each stage of a call asks of a state, and that every step
keeps it. -/

namespace Sys2Proof.Machine

/-- R8: every buffer holds at least one block. -/
theorem capacityFits_oneBlock (cap : Capacity) : capacityFits cap 64 = true := by
  cases cap with
  | unbounded => rfl
  | blocks k =>
    simp only [capacityFits, decide_eq_true_eq]
    omega

/-! ### The invariant, stage by stage -/

/-- Outside ABSORB and BUSY only the buffer's form and the cause are left to ask. -/
theorem inv_of_noCall {s : State} (hw : Memory.wf s.pb = true) (hf : s.phase = .fault ↔ s.fault ≠ .noFault)
    (ha : s.phase ≠ .absorb) (hb : s.phase ≠ .busy) : s.Inv where
  canonical := hw
  cause := hf
  absorbing h := absurd h ha
  padding h := absurd h hb
  compressing h := absurd h hb
  block h := absurd h hb
  firstBlock h := absurd h hb

theorem inv_of_absorb {s : State} (hw : Memory.wf s.pb = true) (hf : s.fault = .noFault) (hp : s.phase = .absorb)
    (hm : s.MessageInv) : s.Inv where
  canonical := hw
  cause := by simp [hp, hf]
  absorbing _ := hm
  padding h := by simp [hp] at h
  compressing h := by simp [hp] at h
  block h := by simp [hp] at h
  firstBlock h := by simp [hp] at h

theorem inv_of_pad {s : State} (hw : Memory.wf s.pb = true) (hf : s.fault = .noFault) (hp : s.phase = .busy)
    (hu : s.ustep = .pad) (hm : s.MessageInv) : s.Inv where
  canonical := hw
  cause := by simp [hp, hf]
  absorbing h := by simp [hp] at h
  padding _ _ := hm
  compressing _ h := absurd hu h
  block _ h := by simp [hu] at h
  firstBlock _ h := by simp [hu] at h

/-- At LOADW, in the rounds and at FOLD the block counts; at SER it does not. -/
theorem inv_of_blocks {s : State} (hw : Memory.wf s.pb = true) (hf : s.fault = .noFault) (hp : s.phase = .busy)
    (hu : s.ustep ≠ .pad) (hb : s.BlocksInv)
    (hblk : s.ustep ≠ .ser → s.blk < s.nblk ∧ (s.blk = 0 → s.h = initialAccumulator)) : s.Inv where
  canonical := hw
  cause := by simp [hp, hf]
  absorbing h := by simp [hp] at h
  padding _ h := absurd h hu
  compressing _ _ := hb
  block _ h := (hblk fun he => by simp [he] at h).1
  firstBlock _ h := (hblk fun he => by simp [he] at h).2

/-- The cause of a state outside FAULT. -/
theorem State.Inv.noFault {s : State} (h : s.Inv) (hp : s.phase ≠ .fault) : s.fault = .noFault :=
  not_not.mp (mt h.cause.mpr hp)

/-- The invariant says nothing of the port, the host's moves and the reads. -/
theorem State.Inv.withPorts {s : State} (h : s.Inv) (cmd : Option (BitVec 24)) (host : List HostMove)
    (reads : List PortRead) : State.Inv { s with cmd := cmd, host := host, reads := reads } where
  canonical := h.canonical
  cause := h.cause
  absorbing hp := ⟨(h.absorbing hp).initial, (h.absorbing hp).room, (h.absorbing hp).message⟩
  padding hp hu := ⟨(h.padding hp hu).initial, (h.padding hp hu).room, (h.padding hp hu).message⟩
  compressing hp hu :=
    ⟨(h.compressing hp hu).count, (h.compressing hp hu).room, (h.compressing hp hu).buffer, (h.compressing hp hu).trailer⟩
  block := h.block
  firstBlock := h.firstBlock

/-! ### Commands keep the invariant -/

theorem raiseFault_inv {why : FaultCause} (hw : why ≠ .noFault) (s : State) : (raiseFault why s).Inv :=
  inv_of_noCall wf_nil (by simp [raiseFault, hw]) (by simp [raiseFault]) (by simp [raiseFault])

theorem resetEngine_inv (s : State) : (resetEngine s).Inv :=
  inv_of_noCall wf_nil (by simp [resetEngine]) (by simp [resetEngine]) (by simp [resetEngine])

theorem holdWord_inv {s : State} (hs : s.Inv) (code : CodeWord) : (holdWord code s).Inv := by
  obtain ⟨c, he, _⟩ := holdWord_eq code s
  rw [he]
  exact hs.withPorts c s.host s.reads

/-- START opens an empty message (R138). -/
theorem startCall_inv {s : State} (hs : s.Inv) : (startCall s).Inv := by
  refine inv_of_absorb ?_ (startCall_fault s) (startCall_phase s) ⟨startCall_h s, ?_, ?_⟩
  · rw [startCall_pb]
    exact hs.canonical
  · rw [startCall_cap, startCall_len]
    exact capacityFits_mono s.cap (capacityFits_oneBlock s.cap) (by decide)
  · intro addr h
    simp at h

theorem execStart_inv {s t : State} (hs : s.Inv) (h : execStart s = .next t) : t.Inv := by
  by_cases hp : s.phase = .busy
  · simp only [execStart, hp] at h
    cases h
    exact holdWord_inv hs (encode .start)
  · cases (execStart_accepts hp).symm.trans h
    exact startCall_inv hs

/-- PUTC lengthens the message by bytes it writes, and leaves room for the padding, or raises ALLOC (R139). -/
theorem appendBytes_inv {s : State} (hs : s.Inv) (hp : s.phase = .absorb) (bytes : List Byte) :
    (appendBytes bytes s).Inv := by
  obtain ⟨hroom, he⟩ | ⟨_, he⟩ := appendBytes_cases bytes s <;> rw [he]
  · exact inv_of_absorb (wf_memWriteBytes s s.len bytes hs.canonical) (hs.noFault (by simp [hp])) hp
      ⟨(hs.absorbing hp).initial, hroom, written_memWriteBytes (hs.absorbing hp).message bytes⟩
  · exact raiseFault_inv (by decide) s

/-- FINISH passes the message on to PAD (R140). -/
theorem seqToStage_pad_inv {s : State} (hs : s.Inv) (hp : s.phase = .absorb) : (seqToStage .pad s).Inv :=
  inv_of_pad hs.canonical (hs.noFault (by simp [hp])) rfl rfl
    ⟨(hs.absorbing hp).initial, (hs.absorbing hp).room, (hs.absorbing hp).message⟩

/-- A command other than START keeps the invariant if what it does when accepted keeps it. -/
theorem command_inv {code : CodeWord} {s t : State} {r : Result} (hs : s.Inv) (h : command code s r = .next t)
    (hr : r = .next t → t.Inv) : t.Inv := by
  obtain ⟨_, rfl⟩ | ⟨_, rfl⟩ | ⟨_, _, h⟩ := command_next h
  · exact holdWord_inv hs code
  · exact hs
  · exact hr h

/-- PUTC and FINISH keep the invariant if what they do in ABSORB keeps it. -/
theorem callCommand_inv {code : CodeWord} {s t u : State} (hs : s.Inv)
    (h : command code s (inAbsorb s (.next u)) = .next t) (hu : s.phase = .absorb → u.Inv) : t.Inv := by
  refine command_inv hs h fun h => ?_
  obtain ⟨hp, h⟩ | ⟨_, rfl⟩ := inAbsorb_next h
  · cases h
    exact hu hp
  · exact raiseFault_inv (by decide) s

theorem illegal_inv {code : CodeWord} {s t : State} (hs : s.Inv)
    (h : command code s (.next (raiseFault .illegalCmd s)) = .next t) : t.Inv :=
  command_inv hs h fun h => by
    cases h
    exact raiseFault_inv (by decide) s

/-! ### Micro-operations keep the invariant -/

/-- PAD turns a message with room into blocks that end in its length (R107). -/
theorem padBuffer_blocksInv {s t : State} (hm : s.MessageInv) (hfits : capacityFits s.cap (paddedLength s.len) = true)
    (hpb : t.pb = (padBuffer s).pb) (hcap : t.cap = s.cap) (hlen : t.len = s.len)
    (hnblk : t.nblk = paddedLength s.len / 64) : t.BlocksInv := by
  have hcount : t.nblk = (s.len + 8) / 64 + 1 := by rw [hnblk, paddedLength_eq_blocks]; omega
  have hblocks : 64 * t.nblk = paddedLength s.len := by rw [hcount, paddedLength_eq_blocks]
  refine ⟨by rw [hcount, hlen], by rwa [hcap, hblocks], ?_, ?_⟩
  · rw [written, hpb, hblocks]
    exact padBuffer_written hm.message
  · rw [hpb, hcount, hlen]
    exact padBuffer_endsInLength s

theorem execPad_inv {s t : State} (hs : s.Inv) (h : execPad s = .next t) : t.Inv := by
  obtain ⟨⟨hp, hu⟩, h⟩ := enabledAt_next h
  obtain ⟨hfits, rfl⟩ := withinBuffer_next h
  have hm := hs.padding hp hu
  have hpos : 0 < paddedLength s.len / 64 := by rw [paddedLength_eq_blocks]; omega
  refine inv_of_blocks ?canonical ?noFault (by simp) (by simp)
    (padBuffer_blocksInv hm hfits (by simp) (by simp) (by simp) (by simp))
    fun _ => ⟨by simpa using hpos, fun _ => by simpa using hm.initial⟩
  case canonical => simpa using wf_padBuffer s hs.canonical
  case noFault => simpa using hs.noFault (by simp [hp])

/-- A step from one block stage to the next keeps the invariant if it keeps the buffer and its sizes, and the block and the
accumulator where these still count. -/
theorem State.Inv.nextStage {s t : State} (hs : s.Inv) (hp : s.phase = .busy) (hu : s.ustep ≠ .pad)
    (hp' : t.phase = .busy) (hu' : t.ustep ≠ .pad) (hf : t.fault = s.fault)
    (hbuf : t.pb = s.pb ∧ t.cap = s.cap ∧ t.len = s.len ∧ t.nblk = s.nblk)
    (hblk : t.ustep ≠ .ser → t.blk < t.nblk ∧ (t.blk = 0 → t.h = initialAccumulator)) : t.Inv := by
  obtain ⟨hpb, hcap, hlen, hnblk⟩ := hbuf
  obtain ⟨hcount, hroom, hbuffer, htrailer⟩ := hs.compressing hp hu
  refine inv_of_blocks (hpb ▸ hs.canonical) (hf.trans (hs.noFault (by simp [hp]))) hp' hu' ⟨?_, ?_, ?_, ?_⟩ hblk
  · rw [hnblk, hlen, hcount]
  · rwa [hcap, hnblk]
  · rwa [written, hpb, hnblk]
  · rwa [hpb, hnblk, hlen]

theorem execLoadw_inv {s t : State} (hs : s.Inv) (h : execLoadw s = .next t) : t.Inv := by
  obtain ⟨⟨hp, hu⟩, h⟩ := enabledAt_next h
  obtain ⟨_, rfl⟩ := withinBuffer_next h
  exact hs.nextStage hp (by simp [hu]) rfl MicroStep.noConfusion rfl ⟨rfl, rfl, rfl, rfl⟩
    fun _ => ⟨hs.block hp (.inl hu), hs.firstBlock hp (.inl hu)⟩

/-- A round keeps the invariant if the sequencer's move after it stays in the block. -/
theorem roundOf_inv {f : Word} {g : Fin 16} {r : BitVec 6} {s t : State} {next : State → State} (hs : s.Inv)
    (h : roundOf f g r s next = .next t)
    (hn : ∀ u, (∃ i, next u = seqTo .rnd s.blk i u) ∨ next u = seqToBlock .fold s.blk u) : t.Inv := by
  obtain ⟨hp, hu, _, rfl⟩ := roundOf_next h
  have hblk : s.blk < s.nblk ∧ (s.blk = 0 → s.h = initialAccumulator) :=
    ⟨hs.block hp (.inr (.inl hu)), hs.firstBlock hp (.inr (.inl hu))⟩
  obtain ⟨i, he⟩ | he := hn (roundWrite f g r s) <;> rw [he]
  · exact hs.nextStage hp (by simp [hu]) rfl MicroStep.noConfusion rfl ⟨rfl, rfl, rfl, rfl⟩ fun _ => hblk
  · exact hs.nextStage hp (by simp [hu]) rfl MicroStep.noConfusion rfl ⟨rfl, rfl, rfl, rfl⟩ fun _ => hblk

/-- After FOLD the block is a later one or there is none left (R120). -/
theorem execFold_inv {s t : State} (hs : s.Inv) (h : execFold s = .next t) : t.Inv := by
  obtain ⟨⟨hp, hu⟩, h⟩ := enabledAt_next h
  cases h
  split
  · exact hs.nextStage hp (by simp [hu]) rfl MicroStep.noConfusion rfl ⟨rfl, rfl, rfl, rfl⟩
      fun _ => ⟨‹_›, fun h0 => absurd h0 (Nat.succ_ne_zero s.blk)⟩
  · exact hs.nextStage hp (by simp [hu]) rfl MicroStep.noConfusion rfl ⟨rfl, rfl, rfl, rfl⟩ fun h => absurd rfl h

theorem execSer_inv {s t : State} (hs : s.Inv) (h : execSer s = .next t) : t.Inv := by
  obtain ⟨⟨hp, _⟩, h⟩ := enabledAt_next h
  cases h
  exact inv_of_noCall hs.canonical (by simp [hs.noFault (show s.phase ≠ .fault by simp [hp])]) Phase.noConfusion
    Phase.noConfusion

/-! ### Every step keeps the invariant -/

theorem exec_inv {i : Instr} {s t : State} (hs : s.Inv) (h : exec i s = .next t) : t.Inv := by
  cases i with
  | start => exact execStart_inv hs h
  | putcEnc1 | putcEnc2 | putcEnc3 | putcEnc4 => exact callCommand_inv hs h fun hp => appendBytes_inv hs hp _
  | putcBad => exact callCommand_inv hs h fun _ => raiseFault_inv (by decide) s
  | finish => exact callCommand_inv hs h fun hp => seqToStage_pad_inv hs hp
  | reservedOp0 | reservedStartArg | reservedFinishArg | reservedOp4to7 => exact illegal_inv hs h
  | pad => exact execPad_inv hs h
  | loadw => exact execLoadw_inv hs h
  | rndq0 | rndq1 | rndq2 => exact roundOf_inv hs h fun _ => .inl ⟨_, rfl⟩
  | rndq3 =>
    simp only [exec, execRndq3] at h
    refine roundOf_inv hs h fun u => ?_
    split
    · exact .inl ⟨_, rfl⟩
    · exact .inr rfl
  | fold => exact execFold_inv hs h
  | ser => exact execSer_inv hs h

/-- Settles O47: an instruction keeps the invariant, and so does every answer to the host. -/
theorem stepKeepsInvariant : Obligations.StepKeepsInvariant := by
  intro s t hs h
  obtain ⟨i, u, ⟨⟨host, cmd, rfl⟩, _⟩, h⟩ | ⟨host, rfl⟩ | ⟨rest, _, rfl⟩ | ⟨j, rest, _, h⟩ | ⟨rest, _, rfl⟩ :=
    step_next_cases h
  · exact exec_inv (hs.withPorts cmd host s.reads) h
  · exact hs.withPorts s.cmd host s.reads
  · exact hs.withPorts s.cmd rest (.status s.status :: s.reads)
  · rw [(readDigest_next h).2]
    exact hs.withPorts s.cmd rest _
  · exact resetEngine_inv _

/-- Settles O46: after reset no call is open and the buffer is empty. -/
theorem resetMeetsInvariant : Obligations.ResetMeetsInvariant :=
  inv_of_noCall wf_reset (by decide) (by decide) (by decide)

end Sys2Proof.Machine
end

section
/-! PROOFS. Sequencer positions (10_state.md R27, 30_encoding.md R74, R75): the quarter of a round, and the position that each
micro-operation waits for. -/

namespace Sys2Proof

theorem toNat_quarter (r : BitVec 6) : (r.extractLsb' 4 2).toNat = r.toNat / 16 := by
  have hr := r.isLt
  rw [BitVec.extractLsb'_toNat, Nat.shiftRight_eq_div_pow]
  omega

theorem lowBits_eq_ofNat (r : BitVec 6) : r.extractLsb' 0 4 = BitVec.ofNat 4 r.toNat := by
  apply BitVec.eq_of_toNat_eq
  rw [BitVec.extractLsb'_toNat, BitVec.toNat_ofNat, Nat.shiftRight_zero]

/-- R75: the round's micro-operation, by the quarter of the round index as a number. -/
theorem roundOp_eq (r : BitVec 6) :
    (r.toNat / 16 = 0 → roundOp r = .rndq0 (BitVec.ofNat 4 r.toNat)) ∧
    (r.toNat / 16 = 1 → roundOp r = .rndq1 (BitVec.ofNat 4 r.toNat)) ∧
    (r.toNat / 16 = 2 → roundOp r = .rndq2 (BitVec.ofNat 4 r.toNat)) ∧
    (r.toNat / 16 = 3 → roundOp r = .rndq3 (BitVec.ofNat 4 r.toNat)) := by
  refine ⟨?_, ?_, ?_, ?_⟩ <;> (intro hq; rw [roundOp, toNat_quarter, lowBits_eq_ofNat, hq]; rfl)

/-- R74: the code of a position decodes to the micro-operation there. -/
theorem decode_microWord (u : MicroStep) (r : BitVec 6) :
    decode (.useq (microWord u (if u = .rnd then r else 0#6))) = .ok (microOp u r) := by
  cases u <;> simp [decode, decodeMicro, decodePosition, microOp]

/-- Settles O5: the fields of the code give the position back, and a quarter is 16 rounds. -/
theorem sequencerPositionDecodes : Obligations.SequencerPositionDecodes := by
  refine ⟨decode_microWord, fun r => ?_⟩
  have hr := r.isLt
  obtain ⟨h0, h1, h2, h3⟩ := roundOp_eq r
  exact ⟨fun _ => h0 (by omega), fun _ _ => h1 (by omega), fun _ _ => h2 (by omega), fun _ => h3 (by omega)⟩

end Sys2Proof

namespace Sys2Proof.Machine

/-! ### A micro-operation away from its position -/

theorem enabledAt_of_disabled {u : MicroStep} {s : State} (r : Result) (h : ¬ (s.phase = .busy ∧ s.ustep = u)) :
    enabledAt u s r = .fault .notEnabled := if_neg h

theorem roundOf_of_disabled {f : Word} {g : Fin 16} {r : BitVec 6} {s : State} (next : State → State)
    (h : ¬ (s.phase = .busy ∧ s.ustep = .rnd ∧ s.i = r)) : roundOf f g r s next = .fault .notEnabled := by
  by_cases he : s.phase = .busy ∧ s.ustep = .rnd
  · rw [roundOf, enabledAt_of_enabled _ he.1 he.2, if_neg fun hi => h ⟨he.1, he.2, hi⟩]
  · exact enabledAt_of_disabled _ he

/-- R75: a quarter and its low bits name the micro-operation of the quarter, at those bits. -/
theorem roundOp_roundIndex0 (k : BitVec 4) : roundOp (roundIndex 0#2 k) = .rndq0 k := by revert k; decide

theorem roundOp_roundIndex1 (k : BitVec 4) : roundOp (roundIndex 1#2 k) = .rndq1 k := by revert k; decide

theorem roundOp_roundIndex2 (k : BitVec 4) : roundOp (roundIndex 2#2 k) = .rndq2 k := by revert k; decide

theorem roundOp_roundIndex3 (k : BitVec 4) : roundOp (roundIndex 3#2 k) = .rndq3 k := by revert k; decide

/-- Settles O37: the position that `enabledAt` and `roundOf` ask for is the one that names the micro-operation. -/
theorem disabledMicroOpStops : Obligations.DisabledMicroOpStops := by
  intro i s hi h
  have stage {u : MicroStep} (hu : microOp u s.i = i) : ¬ (s.phase = .busy ∧ s.ustep = u) :=
    fun ⟨hp, he⟩ => h ⟨hp, he ▸ hu⟩
  have round {r : BitVec 6} (hr : roundOp r = i) : ¬ (s.phase = .busy ∧ s.ustep = .rnd ∧ s.i = r) := by
    rintro ⟨hp, hu, rfl⟩
    exact stage (u := .rnd) hr ⟨hp, hu⟩
  cases i with
  | pad | loadw | fold | ser => exact enabledAt_of_disabled _ (stage rfl)
  | rndq0 k => exact roundOf_of_disabled _ (round (roundOp_roundIndex0 k))
  | rndq1 k => exact roundOf_of_disabled _ (round (roundOp_roundIndex1 k))
  | rndq2 k => exact roundOf_of_disabled _ (round (roundOp_roundIndex2 k))
  | rndq3 k =>
    simp only [exec, execRndq3]
    exact roundOf_of_disabled _ (round (roundOp_roundIndex3 k))
  | _ => cases hi

end Sys2Proof.Machine
end

section
/-! PROOFS. STATUS (10_state.md R31) and the state after reset (R39, R180). -/

namespace Sys2Proof.Machine

/-- The value of two fields side by side. -/
theorem toNat_append_eq_add {n m : Nat} (x : BitVec n) (y : BitVec m) : (x ++ y).toNat = x.toNat * 2 ^ m + y.toNat := by
  rw [BitVec.toNat_append, ← Nat.shiftLeft_add_eq_or_of_lt y.isLt, Nat.shiftLeft_eq]

/-- R31: the four fields of STATUS at their places. -/
theorem toNat_status (s : State) :
    s.status.toNat = 128 * s.valid.toNat + 64 * s.ready.toNat + 8 * s.fault.code.toNat + s.phase.code.toNat := by
  simp only [State.status, toNat_append_eq_add, BitVec.toNat_ofBool]
  omega

theorem status_reset : State.reset.status = 0x40#8 := by decide

/-- Outside FAULT the cause is NONE, so STATUS is a function of the phase; in FAULT it is one of the cause. -/
theorem status_mem_of_inv {s : State} (hs : s.Inv) :
    s.status ∈ [0x40#8, 0x41#8, 0x02#8, 0xC3#8, 0x4C#8, 0x54#8, 0x5C#8, 0x64#8] := by
  cases hp : s.phase with
  | fault =>
    have hf : s.fault ≠ .noFault := hs.cause.mp hp
    cases hc : s.fault with
    | noFault => exact absurd hc hf
    | alloc | badScalar | protocol | illegalCmd =>
      rw [State.status, State.valid, State.ready, hp, hc]
      decide
  | uninit | absorb | busy | done =>
    have hf : s.fault = .noFault := hs.noFault (by simp [hp])
    rw [State.status, State.valid, State.ready, hp, hf]
    decide

/-- Settles O38: the fields are read off the value of STATUS, and the invariant ties the cause to the phase. -/
theorem statusFields : Obligations.StatusFields := by
  refine ⟨fun s => ?_, status_reset, fun s hs => status_mem_of_inv hs⟩
  have hv := s.valid.toNat_lt
  have hr := s.ready.toNat_lt
  have hc := s.fault.code.isLt
  have hp := s.phase.code.isLt
  have h := toNat_status s
  have hphase : s.status.toNat % 8 = s.phase.code.toNat := by omega
  have hcause : s.status.toNat / 8 % 8 = s.fault.code.toNat := by omega
  have hready : s.status.toNat / 64 % 2 = s.ready.toNat := by omega
  have hvalid : s.status.toNat / 128 = s.valid.toNat := by omega
  rw [hphase, hcause, hready, hvalid]
  refine ⟨?_, ?_, ?_, ?_⟩
  · cases s.phase <;> rfl
  · cases s.fault <;> rfl
  · unfold State.ready; cases s.phase <;> rfl
  · unfold State.valid; cases s.phase <;> rfl

/-- Settles O41: outside DONE no digest byte is readable. -/
theorem stateAfterReset : Obligations.StateAfterReset :=
  ⟨rfl, rfl, status_reset, rfl, rfl, fun _ => rfl⟩

end Sys2Proof.Machine
end

section
/-! PROOFS. The phase machine (10_state.md R26, R27). -/

namespace Sys2Proof.Machine

theorem phaseEdge_refl (p : Phase) : phaseEdge p p = true := by cases p <;> rfl

/-- Reset is allowed everywhere. -/
theorem phaseEdge_uninit (p : Phase) : phaseEdge p .uninit = true := by cases p <;> rfl

/-- START opens a call outside BUSY. -/
theorem phaseEdge_absorb {p : Phase} (h : p ≠ .busy) : phaseEdge p .absorb = true := by
  cases p with
  | busy => exact absurd rfl h
  | uninit | absorb | done | fault => rfl

/-- Outside BUSY a command may fault. -/
theorem phaseEdge_fault {p : Phase} (h : p ≠ .busy) : phaseEdge p .fault = true := by simp [phaseEdge, h]

theorem holdWord_phase (code : CodeWord) (s : State) : (holdWord code s).phase = s.phase := by
  obtain ⟨c, he, _⟩ := holdWord_eq code s
  rw [he]

/-- A command other than START makes an edge if what it does when accepted makes one. -/
theorem command_phaseEdge {code : CodeWord} {s t : State} {r : Result} (h : command code s r = .next t)
    (hr : s.phase ≠ .busy → r = .next t → phaseEdge s.phase t.phase = true) : phaseEdge s.phase t.phase = true := by
  obtain ⟨_, rfl⟩ | ⟨_, rfl⟩ | ⟨hp, _, h⟩ := command_next h
  · rw [holdWord_phase]
    exact phaseEdge_refl s.phase
  · exact phaseEdge_refl _
  · exact hr hp h

/-- PUTC and FINISH make an edge if what they do in ABSORB makes one from there. -/
theorem callCommand_phaseEdge {code : CodeWord} {s t u : State} (h : command code s (inAbsorb s (.next u)) = .next t)
    (hu : s.phase = .absorb → phaseEdge .absorb u.phase = true) : phaseEdge s.phase t.phase = true := by
  refine command_phaseEdge h fun hb h => ?_
  obtain ⟨hp, h⟩ | ⟨_, rfl⟩ := inAbsorb_next h
  · cases h
    rw [hp]
    exact hu hp
  · exact phaseEdge_fault hb

theorem illegal_phaseEdge {code : CodeWord} {s t : State}
    (h : command code s (.next (raiseFault .illegalCmd s)) = .next t) : phaseEdge s.phase t.phase = true :=
  command_phaseEdge h fun hb h => by
    cases h
    exact phaseEdge_fault hb

theorem appendBytes_phaseEdge (bytes : List Byte) {s : State} (hp : s.phase = .absorb) :
    phaseEdge .absorb (appendBytes bytes s).phase = true := by
  obtain ⟨_, he⟩ | ⟨_, he⟩ := appendBytes_cases bytes s <;> rw [he]
  · simp [hp, phaseEdge]
  · rfl

theorem execStart_phaseEdge {s t : State} (h : execStart s = .next t) : phaseEdge s.phase t.phase = true := by
  by_cases hp : s.phase = .busy
  · simp only [execStart, hp] at h
    cases h
    rw [holdWord_phase]
    exact phaseEdge_refl s.phase
  · cases (execStart_accepts hp).symm.trans h
    exact phaseEdge_absorb hp

/-- A micro-operation happens in BUSY and leaves for DONE or not at all. -/
theorem microOp_phaseEdge {p q : Phase} (hp : p = .busy) (hq : q = .busy ∨ q = .done) : phaseEdge p q = true := by
  subst hp
  obtain rfl | rfl := hq <;> rfl

theorem exec_phaseEdge {i : Instr} {s t : State} (h : exec i s = .next t) : phaseEdge s.phase t.phase = true := by
  cases i with
  | start => exact execStart_phaseEdge h
  | putcEnc1 | putcEnc2 | putcEnc3 | putcEnc4 => exact callCommand_phaseEdge h fun hp => appendBytes_phaseEdge _ hp
  | putcBad | finish => exact callCommand_phaseEdge h fun _ => rfl
  | reservedOp0 | reservedStartArg | reservedFinishArg | reservedOp4to7 => exact illegal_phaseEdge h
  | pad | loadw =>
    obtain ⟨⟨hp, _⟩, h⟩ := enabledAt_next h
    obtain ⟨_, rfl⟩ := withinBuffer_next h
    exact microOp_phaseEdge hp (.inl rfl)
  | rndq0 | rndq1 | rndq2 =>
    obtain ⟨hp, _, _, rfl⟩ := roundOf_next h
    exact microOp_phaseEdge hp (.inl rfl)
  | rndq3 =>
    simp only [exec, execRndq3] at h
    obtain ⟨hp, _, _, rfl⟩ := roundOf_next h
    refine microOp_phaseEdge hp (.inl ?_)
    split <;> rfl
  | fold =>
    obtain ⟨⟨hp, _⟩, h⟩ := enabledAt_next h
    cases h
    refine microOp_phaseEdge hp (.inl ?_)
    split <;> rfl
  | ser =>
    obtain ⟨⟨hp, _⟩, h⟩ := enabledAt_next h
    cases h
    exact microOp_phaseEdge hp (.inr rfl)

/-- Settles O42: every instruction makes an edge, reset makes one, and no other answer to the host changes the phase. -/
theorem phaseFollowsTransitionTable : Obligations.PhaseFollowsTransitionTable := by
  intro s t h
  obtain ⟨i, u, ⟨⟨host, cmd, rfl⟩, _⟩, h⟩ | ⟨host, rfl⟩ | ⟨rest, _, rfl⟩ | ⟨j, rest, _, h⟩ | ⟨rest, _, rfl⟩ :=
    step_next_cases h
  · have hedge := exec_phaseEdge h
    exact hedge
  · exact phaseEdge_refl s.phase
  · exact phaseEdge_refl s.phase
  · rw [(readDigest_next h).2]
    exact phaseEdge_refl s.phase
  · exact phaseEdge_uninit s.phase

end Sys2Proof.Machine
end

section
/-! PROOFS. Two machines that differ only in what R39 and R167 leave unspecified (10_state.md R37, R38, R40, 20_memory.md R64): a
relation that asks, at each stage of a call, for agreement on what the rest of the call reads, and that every step keeps. -/

namespace Sys2Proof.Machine

/-! ### What a host move does -/

theorem nextEvent_readStatus {s : State} {rest : List HostMove} (hh : s.host = .readStatus :: rest) :
    nextEvent s = .answer (.next (readStatus { s with host := rest })) := by
  simp only [nextEvent, hh]

theorem nextEvent_readDigest {s : State} {j : BitVec 4} {rest : List HostMove} (hh : s.host = .readDigest j :: rest) :
    nextEvent s = .answer (readDigest j { s with host := rest }) := by
  simp only [nextEvent, hh]

theorem nextEvent_reset {s : State} {rest : List HostMove} (hh : s.host = .reset :: rest) :
    nextEvent s = .answer (.next (resetEngine { s with host := rest })) := by
  simp only [nextEvent, hh]

theorem nextEvent_wait_ready {s : State} {rest : List HostMove} (hh : s.host = .wait :: rest) (hp : s.phase ≠ .busy) :
    nextEvent s = .answer (.next { s with host := rest }) := by
  simp only [nextEvent, hh, hp, if_false]

/-! ### The relation -/

/-- Agreement on everything that is not the call's. -/
structure SameOutside (s s' : State) : Prop where
  cap : s.cap = s'.cap
  phase : s.phase = s'.phase
  fault : s.fault = s'.fault
  cmd : s.cmd = s'.cmd
  host : s.host = s'.host
  reads : s.reads = s'.reads

/-- The bytes below `n` read the same. -/
def SameBelow (n : Nat) (s s' : State) : Prop := ∀ addr, addr < n → memRead1 s addr = memRead1 s' addr

/-- Agreement on a message not yet padded. -/
def SameMessage (s s' : State) : Prop := s.h = s'.h ∧ s.len = s'.len ∧ SameBelow s.len s s'

/-- Agreement on the padded buffer and on how far the block function has come in it. -/
def SameBlocks (s s' : State) : Prop := s.h = s'.h ∧ s.blk = s'.blk ∧ s.nblk = s'.nblk ∧ SameBelow (64 * s.nblk) s s'

/-- Agreement on the working variables. -/
def SameWorking (s s' : State) : Prop := s.a = s'.a ∧ s.b = s'.b ∧ s.c = s'.c ∧ s.d = s'.d

/-- Agreement on what the rest of the call reads, stage by stage. -/
inductive SameStage (s s' : State) : Prop where
  | noCall (hp : s.phase = .uninit ∨ s.phase = .fault)
  | absorb (hp : s.phase = .absorb) (hm : SameMessage s s')
  | pad (hp : s.phase = .busy) (hu : s.ustep = .pad) (hu' : s'.ustep = .pad) (hm : SameMessage s s')
  | loadw (hp : s.phase = .busy) (hu : s.ustep = .loadw) (hu' : s'.ustep = .loadw) (hlt : s.blk < s.nblk)
      (hb : SameBlocks s s')
  | rnd (hp : s.phase = .busy) (hu : s.ustep = .rnd) (hu' : s'.ustep = .rnd) (hi : s.i = s'.i) (hw : s.w = s'.w)
      (hv : SameWorking s s') (hb : SameBlocks s s')
  | fold (hp : s.phase = .busy) (hu : s.ustep = .fold) (hu' : s'.ustep = .fold) (hv : SameWorking s s')
      (hb : SameBlocks s s')
  | ser (hp : s.phase = .busy) (hu : s.ustep = .ser) (hu' : s'.ustep = .ser) (hh : s.h = s'.h)
  | done (hp : s.phase = .done) (hd : s.digest = s'.digest)

/-- No port can tell the two machines apart, now or later. -/
structure Alike (s s' : State) : Prop where
  outside : SameOutside s s'
  stage : SameStage s s'

/-- Answers that no port can tell apart. -/
inductive SameAnswer : Result → Result → Prop where
  | next {t t' : State} (h : Alike t t') : SameAnswer (.next t) (.next t')
  | fault (r : Fault) : SameAnswer (.fault r) (.fault r)
  | refused (r : Refusal) : SameAnswer (.refused r) (.refused r)

theorem SameAnswer.sameOutcome {r r' : Result} (h : SameAnswer r r') : SameOutcome r r' := by
  cases h with
  | next h => exact ⟨h.outside.reads, h.outside.phase, h.outside.fault⟩
  | fault r => rfl
  | refused r => rfl

/-! ### What each stage gives -/

theorem SameStage.ustep {s s' : State} (h : SameStage s s') (hp : s.phase = .busy) : s.ustep = s'.ustep := by
  cases h <;> simp_all

theorem SameStage.inAbsorb {s s' : State} (h : SameStage s s') (hp : s.phase = .absorb) : SameMessage s s' := by
  cases h with
  | absorb _ hm => exact hm
  | _ => simp_all

theorem SameStage.atPad {s s' : State} (h : SameStage s s') (hp : s.phase = .busy) (hu : s.ustep = .pad) :
    SameMessage s s' := by
  cases h with
  | pad _ _ _ hm => exact hm
  | _ => simp_all

theorem SameStage.atLoadw {s s' : State} (h : SameStage s s') (hp : s.phase = .busy) (hu : s.ustep = .loadw) :
    s.blk < s.nblk ∧ SameBlocks s s' := by
  cases h with
  | loadw _ _ _ hlt hb => exact ⟨hlt, hb⟩
  | _ => simp_all

theorem SameStage.atRnd {s s' : State} (h : SameStage s s') (hp : s.phase = .busy) (hu : s.ustep = .rnd) :
    s.i = s'.i ∧ s.w = s'.w ∧ SameWorking s s' ∧ SameBlocks s s' := by
  cases h with
  | rnd _ _ _ hi hw hv hb => exact ⟨hi, hw, hv, hb⟩
  | _ => simp_all

theorem SameStage.atFold {s s' : State} (h : SameStage s s') (hp : s.phase = .busy) (hu : s.ustep = .fold) :
    SameWorking s s' ∧ SameBlocks s s' := by
  cases h with
  | fold _ _ _ hv hb => exact ⟨hv, hb⟩
  | _ => simp_all

theorem SameStage.atSer {s s' : State} (h : SameStage s s') (hp : s.phase = .busy) (hu : s.ustep = .ser) :
    s.h = s'.h := by
  cases h with
  | ser _ _ _ hh => exact hh
  | _ => simp_all

theorem SameStage.inDone {s s' : State} (h : SameStage s s') (hp : s.phase = .done) : s.digest = s'.digest := by
  cases h with
  | done _ hd => exact hd
  | _ => simp_all

/-- The stage says nothing of the port, the host's moves and the reads. -/
theorem SameStage.withPorts {s s' : State} (h : SameStage s s') (cmd cmd' : Option (BitVec 24))
    (host host' : List HostMove) (reads reads' : List PortRead) :
    SameStage { s with cmd := cmd, host := host, reads := reads } { s' with cmd := cmd', host := host', reads := reads' } := by
  cases h with
  | noCall hp => exact .noCall hp
  | absorb hp hm => exact .absorb hp hm
  | pad hp hu hu' hm => exact .pad hp hu hu' hm
  | loadw hp hu hu' hlt hb => exact .loadw hp hu hu' hlt hb
  | rnd hp hu hu' hi hw hv hb => exact .rnd hp hu hu' hi hw hv hb
  | fold hp hu hu' hv hb => exact .fold hp hu hu' hv hb
  | ser hp hu hu' hh => exact .ser hp hu hu' hh
  | done hp hd => exact .done hp hd

/-- Two machines stay alike when their ports change alike. -/
theorem Alike.withPorts {s s' : State} (h : Alike s s') {cmd cmd' : Option (BitVec 24)} {host host' : List HostMove}
    {reads reads' : List PortRead} (hc : cmd = cmd') (hh : host = host') (hr : reads = reads') :
    Alike { s with cmd := cmd, host := host, reads := reads } { s' with cmd := cmd', host := host', reads := reads' } :=
  ⟨{ h.outside with cmd := hc, host := hh, reads := hr }, h.stage.withPorts _ _ _ _ _ _⟩

/-! ### The buffer -/

/-- A write where the agreement ends lengthens it. -/
theorem SameBelow.write {n : Nat} {s s' : State} (h : SameBelow n s s') (bytes : List Byte) :
    SameBelow (n + bytes.length) (memWriteBytes s n bytes) (memWriteBytes s' n bytes) := by
  intro x hx
  by_cases hold : x < n
  · rw [memRead1_memWriteBytes_outside s n x bytes (.inl hold), memRead1_memWriteBytes_outside s' n x bytes (.inl hold)]
    exact h x hold
  · obtain ⟨k, rfl⟩ : ∃ k, x = n + k := ⟨x - n, by omega⟩
    have hk : k < bytes.length := by omega
    rw [memRead1_memWriteBytes_inside s n k bytes hk, memRead1_memWriteBytes_inside s' n k bytes hk]

/-- PAD fills the buffer from the end of the message on, so what was there before is not seen again. -/
theorem SameMessage.sameBelow_padBuffer {s s' : State} (hm : SameMessage s s') :
    SameBelow (paddedLength s.len) (padBuffer s) (padBuffer s') := by
  obtain ⟨_, hl, hbytes⟩ := hm
  have hmark := hbytes.write [0x80#8]
  have hzeros := hmark.write (List.replicate (zeroBytes s.len) 0x00#8)
  rw [List.length_replicate] at hzeros
  have hlow := hzeros.write (wordBytes (trailerLow s.len))
  have hhigh := hlow.write (wordBytes (trailerHigh s.len))
  rw [padBuffer_eq_writes s, padBuffer_eq_writes s', ← hl]
  exact hhigh

/-- LOADW reads its block only. -/
theorem SameBlocks.blockWord_eq {s s' : State} (hb : SameBlocks s s') (hlt : s.blk < s.nblk) {j : Nat} (hj : j < 16) :
    blockWord s j = blockWord s' j := by
  obtain ⟨_, hblk, _, hbytes⟩ := hb
  have hbyte (m : Nat) (hm : m < 4) : memRead1 s (64 * s.blk + 4 * j + m) = memRead1 s' (64 * s.blk + 4 * j + m) :=
    hbytes _ (by omega)
  rw [blockWord, blockWord, ← hblk, memRead4, memRead4, hbyte 1 (by omega), hbyte 2 (by omega),
    hbyte 3 (by omega), show memRead1 s (64 * s.blk + 4 * j) = _ from hbyte 0 (by omega)]
  rfl

/-! ### Shared operations -/

theorem raiseFault_alike {s s' : State} (h : SameOutside s s') (why : FaultCause) :
    Alike (raiseFault why s) (raiseFault why s') :=
  ⟨{ h with phase := rfl, fault := rfl }, .noCall (.inr rfl)⟩

theorem resetEngine_alike {s s' : State} (h : SameOutside s s') : Alike (resetEngine s) (resetEngine s') :=
  ⟨{ h with phase := rfl, fault := rfl, cmd := rfl }, .noCall (.inl rfl)⟩

/-- START makes the message empty, so no byte of the old buffer is left to agree on. -/
theorem startCall_alike {s s' : State} (h : SameOutside s s') : Alike (startCall s) (startCall s') where
  outside := ⟨by simp [h.cap], by simp, by simp, by simp [h.cmd], by simp [h.host], by simp [h.reads]⟩
  stage := .absorb (startCall_phase s) ⟨by simp, by simp, fun _ haddr => absurd haddr (by simp)⟩

/-- The word held depends on the word presented and on the port. -/
theorem holdWord_alike {s s' : State} (h : Alike s s') (code : CodeWord) : Alike (holdWord code s) (holdWord code s') := by
  obtain ⟨c, he, _⟩ := holdWord_eq code s
  obtain ⟨c', he', _⟩ := holdWord_eq code s'
  have hc : c = c' := by
    have hsame : (holdWord code s).cmd = (holdWord code s').cmd := by
      unfold holdWord
      rw [← h.outside.cmd]
      split <;> simp_all [h.outside.cmd]
    rwa [he, he'] at hsame
  rw [he, he']
  exact h.withPorts hc h.outside.host h.outside.reads

theorem command_alike {code : CodeWord} {s s' : State} {r r' : Result} (h : Alike s s') (hr : SameAnswer r r') :
    SameAnswer (command code s r) (command code s' r') := by
  unfold command
  rw [← h.outside.phase]
  split
  · exact .next (holdWord_alike h code)
  · exact .next h
  all_goals exact hr

theorem inAbsorb_alike {s s' t t' : State} (h : Alike s s') (ht : s.phase = .absorb → Alike t t') :
    SameAnswer (inAbsorb s (.next t)) (inAbsorb s' (.next t')) := by
  unfold inAbsorb
  rw [← h.outside.phase]
  split
  · exact .next (ht ‹_›)
  · exact .next (raiseFault_alike h.outside .protocol)

theorem execStart_alike {s s' : State} (h : Alike s s') : SameAnswer (execStart s) (execStart s') := by
  unfold execStart
  rw [← h.outside.phase]
  split
  · exact .next (holdWord_alike h (encode .start))
  all_goals exact .next (startCall_alike h.outside)

theorem appendBytes_alike {s s' : State} (h : Alike s s') (hp : s.phase = .absorb) (bytes : List Byte) :
    Alike (appendBytes bytes s) (appendBytes bytes s') := by
  obtain ⟨hh, hl, hbytes⟩ := h.stage.inAbsorb hp
  unfold appendBytes
  rw [← h.outside.cap, ← hl]
  split
  · exact ⟨{ h.outside with },
      .absorb hp ⟨hh, rfl, hbytes.write bytes⟩⟩
  · exact raiseFault_alike h.outside .alloc

theorem enabledAt_alike {u : MicroStep} {s s' : State} {r r' : Result} (h : Alike s s')
    (hr : s.phase = .busy → s.ustep = u → SameAnswer r r') : SameAnswer (enabledAt u s r) (enabledAt u s' r') := by
  by_cases hp : s.phase = .busy
  · unfold enabledAt
    rw [← h.outside.phase, ← h.stage.ustep hp]
    split
    · exact hr hp (And.right ‹_›)
    · exact .fault .notEnabled
  · have hp' : s'.phase ≠ .busy := h.outside.phase ▸ hp
    rw [enabledAt_of_disabled r fun he => hp he.1, enabledAt_of_disabled r' fun he => hp' he.1]
    exact .fault .notEnabled

theorem withinBuffer_alike {n : Nat} {s s' t t' : State} (hc : s.cap = s'.cap) (ht : Alike t t') :
    SameAnswer (withinBuffer n s t) (withinBuffer n s' t') := by
  unfold withinBuffer
  rw [← hc]
  split
  · exact .next ht
  · exact .fault .outsideBuffer

/-! ### Micro-operations -/

theorem padBuffer_sameOutside {s s' : State} (h : SameOutside s s') : SameOutside (padBuffer s) (padBuffer s') :=
  ⟨by simp [h.cap], by simp [h.phase], by simp [h.fault], by simp [h.cmd], by simp [h.host], by simp [h.reads]⟩

/-- The sequencer at the first of `n` blocks. -/
theorem firstBlock_alike {s s' : State} {n : Nat} (ho : SameOutside s s') (hn : 0 < n) (hh : s.h = s'.h)
    (hbytes : SameBelow (64 * n) s s') :
    Alike (seqToBlock .loadw 0 { s with nblk := n }) (seqToBlock .loadw 0 { s' with nblk := n }) :=
  ⟨{ ho with phase := rfl }, .loadw rfl rfl rfl hn ⟨hh, rfl, rfl, hbytes⟩⟩

theorem execPad_alike {s s' : State} (h : Alike s s') : SameAnswer (execPad s) (execPad s') := by
  refine enabledAt_alike h fun hp hu => ?_
  have hm := h.stage.atPad hp hu
  have hbytes := hm.sameBelow_padBuffer
  obtain ⟨hh, hl, _⟩ := hm
  have hpos : 0 < paddedLength s.len / 64 := by rw [paddedLength_eq_blocks]; omega
  have hblocks : 64 * (paddedLength s.len / 64) = paddedLength s.len := by rw [paddedLength_eq_blocks]; omega
  rw [← hblocks] at hbytes
  rw [← hl]
  exact withinBuffer_alike h.outside.cap
    (firstBlock_alike (padBuffer_sameOutside h.outside) hpos (by simpa using hh) hbytes)

theorem execLoadw_alike {s s' : State} (h : Alike s s') : SameAnswer (execLoadw s) (execLoadw s') := by
  refine enabledAt_alike h fun hp hu => ?_
  obtain ⟨hlt, hb⟩ := h.stage.atLoadw hp hu
  have hword {j : Nat} (hj : j < 16) := hb.blockWord_eq hlt hj
  obtain ⟨hh, hblk, hn, hbytes⟩ := hb
  rw [← hblk]
  refine withinBuffer_alike h.outside.cap
    ⟨{ h.outside with phase := rfl },
      .rnd rfl rfl rfl rfl ?_ ⟨?_, ?_, ?_, ?_⟩ ⟨hh, rfl, hn, hbytes⟩⟩
  · simp [loadBlock, hword]
  all_goals simp [hh]

/-- A round, at the same position of both machines, reads what they agree on. -/
theorem roundOf_alike {s s' : State} (h : Alike s s') (mix : Word → Word → Word → Word) (g : Fin 16) (r : BitVec 6)
    {next next' : State → State}
    (hn : (∃ i, next = seqTo .rnd s.blk i ∧ next' = seqTo .rnd s'.blk i) ∨
      (next = seqToBlock .fold s.blk ∧ next' = seqToBlock .fold s'.blk)) :
    SameAnswer (roundOf (mix s.b s.c s.d) g r s next) (roundOf (mix s'.b s'.c s'.d) g r s' next') := by
  refine enabledAt_alike h fun hp hu => ?_
  obtain ⟨hi, hw, ⟨ha, hb, hc, hd⟩, hh, hblk, hnblk, hbytes⟩ := h.stage.atRnd hp hu
  rw [← hi, ← hb, ← hc, ← hd]
  split
  · have hv : SameWorking (roundWrite (mix s.b s.c s.d) g r s) (roundWrite (mix s.b s.c s.d) g r s') :=
      ⟨hd, by simp [ha, hb, hw], hb, hc⟩
    obtain ⟨i, rfl, rfl⟩ | ⟨rfl, rfl⟩ := hn
    · exact .next ⟨{ h.outside with phase := rfl },
        .rnd rfl rfl rfl rfl hw hv ⟨hh, hblk, hnblk, hbytes⟩⟩
    · exact .next ⟨{ h.outside with phase := rfl },
        .fold rfl rfl rfl hv ⟨hh, hblk, hnblk, hbytes⟩⟩
  · exact .fault .notEnabled

theorem execFold_alike {s s' : State} (h : Alike s s') : SameAnswer (execFold s) (execFold s') := by
  refine enabledAt_alike h fun hp hu => .next ?_
  obtain ⟨⟨ha, hb, hc, hd⟩, hh, hblk, hn, hbytes⟩ := h.stage.atFold hp hu
  have hacc : (foldAccumulator s).h = (foldAccumulator s').h := by simp [foldAccumulator, ha, hb, hc, hd, hh]
  rw [← hblk, ← hn]
  split
  · exact ⟨{ h.outside with phase := rfl },
      .loadw rfl rfl rfl ‹_› ⟨hacc, rfl, hn, hbytes⟩⟩
  · exact ⟨{ h.outside with phase := rfl },
      .ser rfl rfl rfl hacc⟩

theorem execSer_alike {s s' : State} (h : Alike s s') : SameAnswer (execSer s) (execSer s') := by
  refine enabledAt_alike h fun hp hu => .next ?_
  exact ⟨{ h.outside with phase := rfl },
    .done rfl (congrArg serialize (h.stage.atSer hp hu))⟩

/-! ### Every step -/

theorem exec_alike {s s' : State} (h : Alike s s') (i : Instr) : SameAnswer (exec i s) (exec i s') := by
  cases i with
  | start => exact execStart_alike h
  | putcEnc1 | putcEnc2 | putcEnc3 | putcEnc4 =>
    exact command_alike h (inAbsorb_alike h fun hp => appendBytes_alike h hp _)
  | putcBad => exact command_alike h (inAbsorb_alike h fun _ => raiseFault_alike h.outside .badScalar)
  | finish =>
    refine command_alike h (inAbsorb_alike h fun hp => ?_)
    exact ⟨{ h.outside with phase := rfl },
      .pad rfl rfl rfl (h.stage.inAbsorb hp)⟩
  | reservedOp0 | reservedStartArg | reservedFinishArg | reservedOp4to7 =>
    exact command_alike h (.next (raiseFault_alike h.outside .illegalCmd))
  | pad => exact execPad_alike h
  | loadw => exact execLoadw_alike h
  | rndq0 k => exact roundOf_alike h mix0 _ _ (.inl ⟨_, rfl, rfl⟩)
  | rndq1 k => exact roundOf_alike h mix1 _ _ (.inl ⟨_, rfl, rfl⟩)
  | rndq2 k => exact roundOf_alike h mix2 _ _ (.inl ⟨_, rfl, rfl⟩)
  | rndq3 k =>
    simp only [exec, execRndq3]
    refine roundOf_alike h mix3 _ _ ?_
    by_cases hlast : (roundIndex 3#2 k).toNat < 63
    · exact .inl ⟨_, funext fun _ => if_pos hlast, funext fun _ => if_pos hlast⟩
    · exact .inr ⟨funext fun _ => if_neg hlast, funext fun _ => if_neg hlast⟩
  | fold => exact execFold_alike h
  | ser => exact execSer_alike h

theorem readStatus_alike {s s' : State} (h : Alike s s') : Alike (readStatus s) (readStatus s') := by
  have hstatus : s.status = s'.status := by
    simp only [State.status, State.valid, State.ready, h.outside.phase, h.outside.fault]
  exact h.withPorts h.outside.cmd h.outside.host (by rw [hstatus, h.outside.reads])

/-- A DIGEST read is refused by both, or gives the byte that both hold. -/
theorem readDigest_alike {s s' : State} (h : Alike s s') (j : BitVec 4) : SameAnswer (readDigest j s) (readDigest j s') := by
  by_cases hp : s.phase = .done
  · have hp' : s'.phase = .done := h.outside.phase ▸ hp
    have hbyte : s.digest[j.toNat]'j.isLt = s'.digest[j.toNat]'j.isLt := by rw [h.stage.inDone hp]
    rw [readDigest, readDigest, if_pos hp, if_pos hp']
    exact .next (h.withPorts h.outside.cmd h.outside.host (by rw [hbyte, h.outside.reads]))
  · have hp' : s'.phase ≠ .done := h.outside.phase ▸ hp
    rw [readDigest, readDigest, if_neg hp, if_neg hp']
    exact .refused .digestNotValid

/-- Events that no port can tell apart. -/
inductive SameEvent : Event → Event → Prop where
  | run (i : Instr) {s s' : State} (h : Alike s s') : SameEvent (.run i s) (.run i s')
  | answer {r r' : Result} (h : SameAnswer r r') : SameEvent (.answer r) (.answer r')

theorem engineEvent_alike {s s' : State} (h : Alike s s') : SameEvent (engineEvent s) (engineEvent s') := by
  by_cases hp : s.phase = .busy
  · have hp' : s'.phase = .busy := h.outside.phase ▸ hp
    have hop : microOp s.ustep s.i = microOp s'.ustep s'.i := by
      rw [← h.stage.ustep hp]
      cases hu : s.ustep with
      | rnd => rw [(h.stage.atRnd hp hu).1]
      | pad | loadw | fold | ser => rfl
    rw [engineEvent_busy hp, engineEvent_busy hp', ← hop]
    exact .run _ h
  · have hp' : s'.phase ≠ .busy := h.outside.phase ▸ hp
    cases hc : s.cmd with
    | none =>
      rw [engineEvent_idle hp hc, engineEvent_idle hp' (h.outside.cmd ▸ hc)]
      exact .answer (.next h)
    | some w =>
      rw [engineEvent_waiting hp hc, engineEvent_waiting hp' (h.outside.cmd ▸ hc)]
      exact .run _ (h.withPorts rfl h.outside.host h.outside.reads)

/-- The host's next move is the same for both, and so is whether it can be made. -/
theorem nextEvent_alike {s s' : State} (h : Alike s s') : SameEvent (nextEvent s) (nextEvent s') := by
  have moved (rest : List HostMove) : Alike { s with host := rest } { s' with host := rest } :=
    h.withPorts h.outside.cmd rfl h.outside.reads
  have hhost := h.outside.host
  cases hh : s.host with
  | nil =>
    rw [nextEvent_no_move hh, nextEvent_no_move (hhost ▸ hh)]
    exact engineEvent_alike h
  | cons m rest =>
    have hh' : s'.host = m :: rest := hhost ▸ hh
    cases m with
    | issue w =>
      cases hc : s.cmd with
      | none =>
        rw [nextEvent_issue_free hh hc, nextEvent_issue_free hh' (h.outside.cmd ▸ hc)]
        exact .run _ (moved rest)
      | some v =>
        rw [nextEvent_issue_taken hh hc, nextEvent_issue_taken hh' (h.outside.cmd ▸ hc)]
        exact engineEvent_alike h
    | readStatus =>
      rw [nextEvent_readStatus hh, nextEvent_readStatus hh']
      exact .answer (.next (readStatus_alike (moved rest)))
    | readDigest j =>
      rw [nextEvent_readDigest hh, nextEvent_readDigest hh']
      exact .answer (readDigest_alike (moved rest) j)
    | reset =>
      rw [nextEvent_reset hh, nextEvent_reset hh']
      exact .answer (.next (resetEngine_alike (moved rest).outside))
    | yield =>
      rw [nextEvent_yield hh, nextEvent_yield hh']
      exact engineEvent_alike (moved rest)
    | wait =>
      by_cases hp : s.phase = .busy
      · rw [nextEvent_wait_busy hh hp, nextEvent_wait_busy hh' (h.outside.phase ▸ hp)]
        exact engineEvent_alike h
      · rw [nextEvent_wait_ready hh hp, nextEvent_wait_ready hh' (h.outside.phase ▸ hp)]
        exact .answer (.next (moved rest))

theorem step_alike {s s' : State} (h : Alike s s') : SameAnswer (step s) (step s') := by
  have he := nextEvent_alike h
  unfold step
  generalize nextEvent s = e, nextEvent s' = e' at he
  cases he with
  | run i h => exact exec_alike h i
  | answer h => exact h

theorem stepN_alike (k : Nat) {s s' : State} (h : Alike s s') : SameAnswer (stepN k s) (stepN k s') := by
  induction k generalizing s s' with
  | zero => exact .next h
  | succ k ih =>
    have hs := step_alike h
    unfold stepN
    generalize step s = r, step s' = r' at hs
    cases hs with
    | next h => exact ih h
    | fault r => exact .fault r
    | refused r => exact .refused r

/-- Settles O49: in UNINIT and FAULT no call is open, so the two machines are alike, and they stay so. -/
theorem unspecifiedStateIsNeverObserved : Obligations.UnspecifiedStateIsNeverObserved := by
  intro k s s' hcap hphase hclosed hfault hcmd hhost hreads
  exact (stepN_alike k ⟨⟨hcap, hphase, hfault, hcmd, hhost, hreads⟩, .noCall hclosed⟩).sameOutcome

end Sys2Proof.Machine
end

section
/-! PROOFS. Byte order (20_memory.md R53, R54, 43_serializer.md R130): the bytes of a word, and the accesses that read and write
them. -/

namespace Sys2Proof.Machine

/-! ### A word and its bytes -/

theorem toNat_wordOfBytes (b0 b1 b2 b3 : Byte) :
    (wordOfBytes b0 b1 b2 b3).toNat = b0.toNat + 2 ^ 8 * b1.toNat + 2 ^ 16 * b2.toNat + 2 ^ 24 * b3.toNat := by
  simp only [wordOfBytes, toNat_append_eq_add]
  omega

/-- Byte `k` of a word is its digit `k` to the base 256. -/
theorem wordByte_eq_ofNat (v : Word) (k : Nat) : wordByte v k = BitVec.ofNat 8 (v.toNat / 2 ^ (8 * k)) := by
  apply BitVec.eq_of_toNat_eq
  rw [wordByte, BitVec.extractLsb'_toNat, Nat.shiftRight_eq_div_pow, BitVec.toNat_ofNat]

/-- The digits of a word make up the word. -/
theorem wordOfBytes_wordByte (v : Word) :
    wordOfBytes (wordByte v 0) (wordByte v 1) (wordByte v 2) (wordByte v 3) = v := by
  apply BitVec.eq_of_toNat_eq
  have hv := v.isLt
  simp only [toNat_wordOfBytes, wordByte_eq_ofNat, BitVec.toNat_ofNat]
  omega

/-! ### Accesses -/

theorem memRead1_of_cell {s : State} {addr : Nat} {x : Byte} (h : cellAt s.pb addr = some x) : memRead1 s addr = x := by
  rw [memRead1, h, Option.getD_some]

theorem memRead1_memWrite1_same (s : State) (addr : Nat) (v : Byte) : memRead1 (memWrite1 s addr v) addr = v :=
  memRead1_memWriteBytes_inside s addr 0 [v] (by simp)

theorem memRead1_memWrite1_other (s : State) {addr x : Nat} (v : Byte) (h : x ≠ addr) :
    memRead1 (memWrite1 s addr v) x = memRead1 s x :=
  memRead1_memWriteBytes_outside s addr x [v] (by rw [List.length_singleton]; omega)

theorem memRead1_memWrite4_inside (s : State) (addr : Nat) (v : Word) {k : Nat} (hk : k < 4) :
    memRead1 (memWrite4 s addr v) (addr + k) = wordByte v k := by
  rw [memWrite4, memRead1_memWriteBytes_inside s addr k (wordBytes v) hk]
  exact Option.some.inj ((List.getElem?_eq_getElem hk).symm.trans (getElem?_wordBytes v hk))

theorem memRead1_memWrite4_outside (s : State) {addr x : Nat} (v : Word) (h : x < addr ∨ addr + 4 ≤ x) :
    memRead1 (memWrite4 s addr v) x = memRead1 s x :=
  memRead1_memWriteBytes_outside s addr x (wordBytes v) h

theorem memRead4_memWrite4 (s : State) (addr : Nat) (v : Word) : memRead4 (memWrite4 s addr v) addr = v := by
  have hbyte (k : Nat) (hk : k < 4) := memRead1_memWrite4_inside s addr v hk
  have hfirst : memRead1 (memWrite4 s addr v) addr = wordByte v 0 := hbyte 0 (by decide)
  rw [memRead4, hfirst, hbyte 1 (by decide), hbyte 2 (by decide), hbyte 3 (by decide), wordOfBytes_wordByte]

/-- R130: the serializer puts the bytes of a word in the order in which a write stores them. -/
theorem getElem_serialize (h : Vector Word 4) {k m : Nat} (hk : k < 4) (hm : m < 4) :
    (serialize h)[4 * k + m]'(by omega) = wordByte h[k] m := by
  obtain rfl | rfl | rfl | rfl : k = 0 ∨ k = 1 ∨ k = 2 ∨ k = 3 := by omega
  all_goals
    obtain rfl | rfl | rfl | rfl : m = 0 ∨ m = 1 ∨ m = 2 ∨ m = 3 := by omega
    all_goals rfl

/-- Settles O13: each access by its own rule, and a byte of a word is a digit of it. -/
theorem wordAccessIsLittleEndian : Obligations.WordAccessIsLittleEndian := by
  refine ⟨?read1, ?read4, ?write1, ?write4, ?serialize⟩
  case read1 => exact fun _ _ _ h => memRead1_of_cell h
  case read4 => exact fun _ _ => toNat_wordOfBytes _ _ _ _
  case write1 => exact fun s addr v => ⟨memRead1_memWrite1_same s addr v, fun _ hx => memRead1_memWrite1_other s v hx⟩
  case write4 =>
    refine fun s addr v => ⟨fun k hk => ?_, fun _ hx => memRead1_memWrite4_outside s v hx, memRead4_memWrite4 s addr v⟩
    rw [memRead1_memWrite4_inside s addr v hk, wordByte_eq_ofNat]
  case serialize =>
    intro h k m hk hm
    rw [getElem_serialize h hk hm, wordByte_eq_ofNat]

end Sys2Proof.Machine
end

section
/-! PROOFS. Earlier port reads (20_memory.md R60, 44_host_interface.md R141): each operation passes on the reads it finds. -/

namespace Sys2Proof.Machine

/-- `s` with more reads made before its own. -/
def State.readBefore (earlier : List PortRead) (s : State) : State := { s with reads := s.reads ++ earlier }

/-- The event of a machine with more reads made before its own. -/
def Event.readBefore (earlier : List PortRead) : Event → Event
  | .run i t => .run i (t.readBefore earlier)
  | .answer r => .answer (withEarlierReads earlier r)

/-! ### The fields that decide what a step does -/

@[simp] theorem readBefore_cap (earlier : List PortRead) (s : State) : (s.readBefore earlier).cap = s.cap := rfl
@[simp] theorem readBefore_phase (earlier : List PortRead) (s : State) : (s.readBefore earlier).phase = s.phase := rfl
@[simp] theorem readBefore_ustep (earlier : List PortRead) (s : State) : (s.readBefore earlier).ustep = s.ustep := rfl
@[simp] theorem readBefore_blk (earlier : List PortRead) (s : State) : (s.readBefore earlier).blk = s.blk := rfl
@[simp] theorem readBefore_i (earlier : List PortRead) (s : State) : (s.readBefore earlier).i = s.i := rfl
@[simp] theorem readBefore_len (earlier : List PortRead) (s : State) : (s.readBefore earlier).len = s.len := rfl
@[simp] theorem readBefore_nblk (earlier : List PortRead) (s : State) : (s.readBefore earlier).nblk = s.nblk := rfl
@[simp] theorem readBefore_cmd (earlier : List PortRead) (s : State) : (s.readBefore earlier).cmd = s.cmd := rfl
@[simp] theorem readBefore_host (earlier : List PortRead) (s : State) : (s.readBefore earlier).host = s.host := rfl

/-! ### Shared operations -/

section
variable (earlier : List PortRead) (s : State)

theorem holdWord_readBefore (code : CodeWord) :
    holdWord code (s.readBefore earlier) = (holdWord code s).readBefore earlier := by
  unfold holdWord
  rw [readBefore_cmd]
  split <;> rfl

theorem command_readBefore {code : CodeWord} {r r' : Result} (hr : r' = withEarlierReads earlier r) :
    command code (s.readBefore earlier) r' = withEarlierReads earlier (command code s r) := by
  unfold command
  rw [readBefore_phase, holdWord_readBefore]
  split
  case h_1 | h_2 => rfl
  all_goals exact hr

theorem inAbsorb_readBefore {r r' : Result} (hr : r' = withEarlierReads earlier r) :
    inAbsorb (s.readBefore earlier) r' = withEarlierReads earlier (inAbsorb s r) := by
  unfold inAbsorb
  rw [readBefore_phase]
  split
  · exact hr
  · rfl

theorem appendBytes_readBefore (bytes : List Byte) :
    appendBytes bytes (s.readBefore earlier) = (appendBytes bytes s).readBefore earlier := by
  unfold appendBytes
  rw [readBefore_cap, readBefore_len]
  split <;> rfl

/-- PUTC of a scalar value. -/
theorem putc_readBefore (code : CodeWord) (bytes : List Byte) :
    command code (s.readBefore earlier)
        (inAbsorb (s.readBefore earlier) (.next (appendBytes bytes (s.readBefore earlier)))) =
      withEarlierReads earlier (command code s (inAbsorb s (.next (appendBytes bytes s)))) := by
  rw [appendBytes_readBefore]
  exact command_readBefore earlier s (inAbsorb_readBefore earlier s rfl)

theorem startCall_readBefore : startCall (s.readBefore earlier) = (startCall s).readBefore earlier := by
  unfold startCall
  rw [readBefore_phase]
  split <;> rfl

theorem execStart_readBefore : execStart (s.readBefore earlier) = withEarlierReads earlier (execStart s) := by
  unfold execStart
  rw [readBefore_phase, holdWord_readBefore, startCall_readBefore]
  split <;> rfl

theorem enabledAt_readBefore {u : MicroStep} {r r' : Result} (hr : r' = withEarlierReads earlier r) :
    enabledAt u (s.readBefore earlier) r' = withEarlierReads earlier (enabledAt u s r) := by
  unfold enabledAt
  rw [readBefore_phase, readBefore_ustep]
  split
  · exact hr
  · rfl

theorem withinBuffer_readBefore (n : Nat) (t : State) :
    withinBuffer n (s.readBefore earlier) (t.readBefore earlier) = withEarlierReads earlier (withinBuffer n s t) := by
  unfold withinBuffer
  rw [readBefore_cap]
  split <;> rfl

theorem roundOf_readBefore (f : Word) (g : Fin 16) (r : BitVec 6) {next : State → State}
    (hn : ∀ t : State, next (t.readBefore earlier) = (next t).readBefore earlier) :
    roundOf f g r (s.readBefore earlier) next = withEarlierReads earlier (roundOf f g r s next) := by
  have hround : next (roundWrite f g r (s.readBefore earlier)) = (next (roundWrite f g r s)).readBefore earlier :=
    hn (roundWrite f g r s)
  refine enabledAt_readBefore earlier s ?_
  rw [readBefore_i, hround]
  split <;> rfl

theorem padBuffer_readBefore : padBuffer (s.readBefore earlier) = (padBuffer s).readBefore earlier := rfl

theorem execPad_readBefore : execPad (s.readBefore earlier) = withEarlierReads earlier (execPad s) := by
  refine enabledAt_readBefore earlier s ?_
  rw [padBuffer_readBefore, readBefore_len]
  exact withinBuffer_readBefore earlier s (paddedLength s.len)
    (seqToBlock .loadw 0 { padBuffer s with nblk := paddedLength s.len / 64 })

theorem loadBlock_readBefore : loadBlock (s.readBefore earlier) = (loadBlock s).readBefore earlier := rfl

theorem execLoadw_readBefore : execLoadw (s.readBefore earlier) = withEarlierReads earlier (execLoadw s) := by
  refine enabledAt_readBefore earlier s ?_
  rw [loadBlock_readBefore, readBefore_blk]
  exact withinBuffer_readBefore earlier s (64 * s.blk + 64) (seqTo .rnd s.blk 0#6 (loadBlock s))

theorem execFold_readBefore : execFold (s.readBefore earlier) = withEarlierReads earlier (execFold s) := by
  refine enabledAt_readBefore earlier s ?_
  rw [readBefore_blk, readBefore_nblk]
  split <;> rfl

theorem readDigest_readBefore (j : BitVec 4) :
    readDigest j (s.readBefore earlier) = withEarlierReads earlier (readDigest j s) := by
  unfold readDigest
  rw [readBefore_phase]
  split <;> rfl

/-! ### Every step -/

theorem exec_readBefore (i : Instr) : exec i (s.readBefore earlier) = withEarlierReads earlier (exec i s) := by
  cases i with
  | start => exact execStart_readBefore earlier s
  | putcEnc1 | putcEnc2 | putcEnc3 | putcEnc4 => exact putc_readBefore earlier s _ _
  | putcBad | finish => exact command_readBefore earlier s (inAbsorb_readBefore earlier s rfl)
  | reservedOp0 | reservedStartArg | reservedFinishArg | reservedOp4to7 => exact command_readBefore earlier s rfl
  | pad => exact execPad_readBefore earlier s
  | loadw => exact execLoadw_readBefore earlier s
  | rndq0 | rndq1 | rndq2 => exact roundOf_readBefore earlier s _ _ _ fun _ => rfl
  | rndq3 =>
    simp only [exec, execRndq3]
    refine roundOf_readBefore earlier s _ _ _ fun t => ?_
    split <;> rfl
  | fold => exact execFold_readBefore earlier s
  | ser => exact enabledAt_readBefore earlier s rfl

theorem engineEvent_readBefore : engineEvent (s.readBefore earlier) = (engineEvent s).readBefore earlier := by
  unfold engineEvent
  rw [readBefore_phase, readBefore_cmd]
  split
  · rfl
  · split <;> rfl

/-- Whose turn it is does not depend on the reads. -/
theorem nextEvent_readBefore : nextEvent (s.readBefore earlier) = (nextEvent s).readBefore earlier := by
  unfold nextEvent
  rw [readBefore_host, readBefore_cmd, readBefore_phase, engineEvent_readBefore]
  split
  case h_4 j rest _ => exact congrArg Event.answer (readDigest_readBefore earlier { s with host := rest } j)
  case h_6 rest _ => exact engineEvent_readBefore earlier { s with host := rest }
  case h_2 | h_7 => split <;> rfl
  all_goals rfl

end

/-- Settles O50: the same event happens, and both an instruction and an answer to the host pass on the reads they find. -/
theorem portReadsNeverSteer : Obligations.PortReadsNeverSteer := by
  intro s earlier
  have hevent := nextEvent_readBefore earlier s
  cases he : nextEvent s with
  | run i t =>
    rw [he] at hevent
    rw [step_of_run he]
    exact (step_of_run hevent).trans (exec_readBefore earlier t i)
  | answer r =>
    rw [he] at hevent
    rw [step_of_answer he]
    exact step_of_answer hevent

end Sys2Proof.Machine
end

section
/-! PROOFS. Command words (30_encoding.md R70 to R73, R77): what the decoder reads from each operation code, the row of a PUTC
operand by its form, and the decoder and the encoder as inverses of each other. -/

namespace Sys2Proof

open Sys2Proof.Machine

/-! ### The operation code -/

theorem toNat_opField (w : BitVec 24) : (opField w).toNat = w.toNat / 2 ^ 21 := by
  have hw := w.isLt
  rw [opField, BitVec.extractLsb'_toNat, Nat.shiftRight_eq_div_pow]
  omega

/-- R71: an operation code is one of the four below 4, or its high bit is set. -/
theorem opField_cases (w : BitVec 24) :
    opField w = 0#3 ∨ opField w = 1#3 ∨ opField w = 2#3 ∨ opField w = 3#3 ∨ 4 ≤ (opField w).toNat := by
  generalize opField w = op
  revert op
  decide

theorem decodeCommand_of_op0 {w : BitVec 24} (h : opField w = 0#3) : decodeCommand w = .reservedOp0 (argField w) := by
  rw [decodeCommand, h]; rfl

theorem decodeCommand_of_op1 {w : BitVec 24} (h : opField w = 1#3) :
    decodeCommand w = if argField w = 0#21 then .start else .reservedStartArg (argField w) := by
  rw [decodeCommand, h]; rfl

theorem decodeCommand_of_op2 {w : BitVec 24} (h : opField w = 2#3) : decodeCommand w = decodePutc (argField w) := by
  rw [decodeCommand, h]; rfl

theorem decodeCommand_of_op3 {w : BitVec 24} (h : opField w = 3#3) :
    decodeCommand w = if argField w = 0#21 then .finish else .reservedFinishArg (argField w) := by
  rw [decodeCommand, h]; rfl

theorem decodeCommand_of_op4to7 {w : BitVec 24} (h : 4 ≤ (opField w).toNat) :
    decodeCommand w = .reservedOp4to7 (w.extractLsb' 0 23) := by
  obtain ⟨n, hn⟩ := Nat.exists_eq_add_of_le' h
  rw [decodeCommand, hn]
  rfl

/-! ### A word with bit 23 set (R73) -/

theorem four_le_opField_append (x : BitVec 23) : 4 ≤ (opField (1#1 ++ x)).toNat := by
  rw [toNat_opField, toNat_append_eq_add, BitVec.toNat_ofNat]
  omega

theorem extractLsb'_append_low (x : BitVec 23) : (1#1 ++ x).extractLsb' 0 23 = x := by
  apply BitVec.eq_of_toNat_eq
  have hx := x.isLt
  rw [BitVec.extractLsb'_toNat, toNat_append_eq_add, BitVec.toNat_ofNat, Nat.shiftRight_zero]
  omega

theorem append_extractLsb'_low {w : BitVec 24} (h : 4 ≤ (opField w).toNat) : 1#1 ++ w.extractLsb' 0 23 = w := by
  apply BitVec.eq_of_toNat_eq
  have hw := w.isLt
  rw [toNat_opField] at h
  rw [toNat_append_eq_add, BitVec.extractLsb'_toNat, BitVec.toNat_ofNat, Nat.shiftRight_zero]
  omega

/-! ### The forms of a PUTC operand (R77) -/

theorem isScalar_iff (cp : BitVec 21) :
    isScalar cp = true ↔ cp.toNat ≤ 0xD7FF ∨ 0xE000 ≤ cp.toNat ∧ cp.toNat ≤ 0x10FFFF := by
  simp only [isScalar, isSurrogate, Bool.and_eq_true, Bool.not_eq_true', Bool.and_eq_false_iff, decide_eq_true_eq,
    decide_eq_false_iff_not]
  omega

theorem not_isScalar_iff (cp : BitVec 21) : isScalar cp = false ↔ notScalar cp := by
  rw [← Bool.not_eq_true, isScalar_iff, notScalar]
  omega

/-- R77: the forms cover all operands. -/
theorem form_cases (cp : BitVec 21) :
    inForm 1 cp ∨ inForm 2 cp ∨ inForm 3 cp ∨ inForm 4 cp ∨ notScalar cp := by
  simp only [inForm, notScalar]
  omega

theorem wellFormed_putcEnc1 (cp : BitVec 21) : (Instr.putcEnc1 cp).wellFormed = true ↔ inForm 1 cp := decide_eq_true_iff

theorem wellFormed_putcEnc2 (cp : BitVec 21) : (Instr.putcEnc2 cp).wellFormed = true ↔ inForm 2 cp := by
  simp only [Instr.wellFormed, inForm, Bool.and_eq_true, decide_eq_true_eq]

theorem wellFormed_putcEnc3 (cp : BitVec 21) : (Instr.putcEnc3 cp).wellFormed = true ↔ inForm 3 cp := by
  simp only [Instr.wellFormed, inForm, isSurrogate, Bool.and_eq_true, Bool.not_eq_true', Bool.and_eq_false_iff,
    decide_eq_true_eq, decide_eq_false_iff_not]
  omega

theorem wellFormed_putcEnc4 (cp : BitVec 21) : (Instr.putcEnc4 cp).wellFormed = true ↔ inForm 4 cp := by
  simp only [Instr.wellFormed, inForm, Bool.and_eq_true, decide_eq_true_eq]

theorem wellFormed_putcBad (cp : BitVec 21) : (Instr.putcBad cp).wellFormed = true ↔ notScalar cp := by
  rw [Instr.wellFormed, Bool.not_eq_true', not_isScalar_iff]

theorem decodePutc_of_inForm1 {cp : BitVec 21} (h : inForm 1 cp) : decodePutc cp = .putcEnc1 cp := by
  simp only [inForm] at h
  have hs : isScalar cp = true := (isScalar_iff cp).mpr (by omega)
  simp [decodePutc, hs, h]

theorem decodePutc_of_inForm2 {cp : BitVec 21} (h : inForm 2 cp) : decodePutc cp = .putcEnc2 cp := by
  simp only [inForm] at h
  have hs : isScalar cp = true := (isScalar_iff cp).mpr (by omega)
  have h1 : ¬ cp.toNat ≤ 0x7F := by omega
  simp [decodePutc, hs, h1, h]

theorem decodePutc_of_inForm3 {cp : BitVec 21} (h : inForm 3 cp) : decodePutc cp = .putcEnc3 cp := by
  simp only [inForm] at h
  have hs : isScalar cp = true := (isScalar_iff cp).mpr (by omega)
  have h1 : ¬ cp.toNat ≤ 0x7F := by omega
  have h2 : ¬ cp.toNat ≤ 0x7FF := by omega
  have h3 : cp.toNat ≤ 0xFFFF := by omega
  simp [decodePutc, hs, h1, h2, h3]

theorem decodePutc_of_inForm4 {cp : BitVec 21} (h : inForm 4 cp) : decodePutc cp = .putcEnc4 cp := by
  simp only [inForm] at h
  have hs : isScalar cp = true := (isScalar_iff cp).mpr (by omega)
  have h1 : ¬ cp.toNat ≤ 0x7F := by omega
  have h2 : ¬ cp.toNat ≤ 0x7FF := by omega
  have h3 : ¬ cp.toNat ≤ 0xFFFF := by omega
  simp [decodePutc, hs, h1, h2, h3]

theorem decodePutc_of_notScalar {cp : BitVec 21} (h : notScalar cp) : decodePutc cp = .putcBad cp :=
  if_pos ((not_isScalar_iff cp).mpr h)

/-! ### The decoder and the encoder, row by row -/

theorem decodeCommand_putcWord (cp : BitVec 21) : decodeCommand (commandWord 2#3 cp) = decodePutc cp := by
  rw [decodeCommand_of_op2 (opField_commandWord _ _), argField_commandWord]

theorem decodeCommand_startArg {arg : BitVec 21} (h : arg ≠ 0#21) :
    decodeCommand (commandWord 1#3 arg) = .reservedStartArg arg := by
  rw [decodeCommand_of_op1 (opField_commandWord _ _), argField_commandWord, if_neg h]

theorem decodeCommand_finishArg {arg : BitVec 21} (h : arg ≠ 0#21) :
    decodeCommand (commandWord 3#3 arg) = .reservedFinishArg arg := by
  rw [decodeCommand_of_op3 (opField_commandWord _ _), argField_commandWord, if_neg h]

theorem decodeCommand_op0 (x : BitVec 21) : decodeCommand (commandWord 0#3 x) = .reservedOp0 x := by
  rw [decodeCommand_of_op0 (opField_commandWord _ _), argField_commandWord]

theorem decodeCommand_op4to7 (x : BitVec 23) : decodeCommand (1#1 ++ x) = .reservedOp4to7 x := by
  rw [decodeCommand_of_op4to7 (four_le_opField_append x), extractLsb'_append_low]

/-- A PUTC word's row takes its operand, and its code is the word. -/
theorem wellFormed_encode_decodePutc (cp : BitVec 21) :
    (decodePutc cp).wellFormed = true ∧ encode (decodePutc cp) = .cmd (commandWord 2#3 cp) := by
  obtain h | h | h | h | h := form_cases cp
  · rw [decodePutc_of_inForm1 h]; exact ⟨(wellFormed_putcEnc1 cp).mpr h, rfl⟩
  · rw [decodePutc_of_inForm2 h]; exact ⟨(wellFormed_putcEnc2 cp).mpr h, rfl⟩
  · rw [decodePutc_of_inForm3 h]; exact ⟨(wellFormed_putcEnc3 cp).mpr h, rfl⟩
  · rw [decodePutc_of_inForm4 h]; exact ⟨(wellFormed_putcEnc4 cp).mpr h, rfl⟩
  · rw [decodePutc_of_notScalar h]; exact ⟨(wellFormed_putcBad cp).mpr h, rfl⟩

/-- R73: every command word is the code of the well-formed instruction it decodes to. -/
theorem wellFormed_encode_decodeCommand (w : BitVec 24) :
    (decodeCommand w).wellFormed = true ∧ encode (decodeCommand w) = .cmd w := by
  have word {op : BitVec 3} (hop : opField w = op) : commandWord op (argField w) = w := hop ▸ commandWord_fields w
  obtain h | h | h | h | h := opField_cases w
  · rw [decodeCommand_of_op0 h]
    exact ⟨rfl, congrArg CodeWord.cmd (word h)⟩
  · rw [decodeCommand_of_op1 h]
    split
    · rename_i harg
      exact ⟨rfl, congrArg CodeWord.cmd (harg ▸ word h)⟩
    · rename_i harg
      exact ⟨bne_iff_ne.mpr harg, congrArg CodeWord.cmd (word h)⟩
  · rw [decodeCommand_of_op2 h, ← word h, argField_commandWord]
    exact wellFormed_encode_decodePutc (argField w)
  · rw [decodeCommand_of_op3 h]
    split
    · rename_i harg
      exact ⟨rfl, congrArg CodeWord.cmd (harg ▸ word h)⟩
    · rename_i harg
      exact ⟨bne_iff_ne.mpr harg, congrArg CodeWord.cmd (word h)⟩
  · rw [decodeCommand_of_op4to7 h]
    exact ⟨rfl, congrArg CodeWord.cmd (append_extractLsb'_low h)⟩

end Sys2Proof
end

section
/-! PROOFS. Micro-step codes (30_encoding.md R74, R75): the position a code names and the code of a position. -/

namespace Sys2Proof

open Sys2Proof.Machine

theorem code_of_ofCode {c : BitVec 3} {u : MicroStep} (h : MicroStep.ofCode c = some u) : u.code = c := by
  cases u <;> (revert c; decide)

theorem microWord_fields {w : BitVec 9} {u : MicroStep} (h : MicroStep.ofCode (ustepField w) = some u) :
    microWord u (roundField w) = w := by
  apply BitVec.eq_of_toNat_eq
  have hw := w.isLt
  rw [microWord, code_of_ofCode h, toNat_append_eq_add, ustepField, roundField, BitVec.extractLsb'_toNat,
    BitVec.extractLsb'_toNat, Nat.shiftRight_eq_div_pow, Nat.shiftRight_zero]
  omega

/-- A code that names a position is that position's code, with round field 0 outside the rounds. -/
theorem decodePosition_ok {w : BitVec 9} {u : MicroStep} {r : BitVec 6} (h : decodePosition w = .ok (u, r)) :
    w = microWord u r ∧ (u ≠ .rnd → r = 0#6) := by
  unfold decodePosition at h
  split at h
  · cases h
  · rename_i hu
    cases h
    exact ⟨(microWord_fields hu).symm, fun hne => absurd rfl hne⟩
  · rename_i hu
    split at h
    · rename_i hr
      cases h
      exact ⟨hr ▸ (microWord_fields hu).symm, fun _ => rfl⟩
    · cases h

/-- A micro-step code decodes by way of the position it names. -/
theorem decode_useq_ok {w : BitVec 9} {i : Instr} (h : decode (.useq w) = .ok i) :
    ∃ u r, decodePosition w = .ok (u, r) ∧ microOp u r = i := by
  simp only [decode, decodeMicro] at h
  split at h
  · cases h
  · rename_i u r hpos
    exact ⟨u, r, hpos, Except.ok.inj h⟩

theorem wellFormed_roundOp (r : BitVec 6) : (roundOp r).wellFormed = true := by
  unfold roundOp
  split <;> rfl

theorem encode_roundOp (r : BitVec 6) : encode (roundOp r) = .useq (microWord .rnd r) := by
  revert r
  decide

/-- The micro-operation at a position is well formed, and its code is the position's. -/
theorem wellFormed_encode_microOp {u : MicroStep} {r : BitVec 6} (hr : u ≠ .rnd → r = 0#6) :
    (microOp u r).wellFormed = true ∧ encode (microOp u r) = .useq (microWord u r) := by
  cases u with
  | rnd => exact ⟨wellFormed_roundOp r, encode_roundOp r⟩
  | pad | loadw | fold | ser =>
    rw [hr (by decide)]
    exact ⟨rfl, rfl⟩

end Sys2Proof
end

section
/-! PROOFS. The decoder and the encoder are inverse to each other, and the rows of the opcode table are disjoint
(30_encoding.md R73). -/

namespace Sys2Proof

open Sys2Proof.Machine

/-- Settles O1: each word's fields are literals, so the decoder computes. -/
theorem knownWordsDecode : Obligations.KnownWordsDecode := by
  refine ⟨?_, ?_, ?_, ?_, ?_, ?_, ?_, ?_, ?_, ?_, ?_, ?_, ?_, ?_, ?_, ?_, ?_, ?_, ?_, ?_, ?_, ?_⟩ <;> rfl

/-- Settles O2: each row's code has the fields its decoder arm asks for. -/
theorem decodeOfEncode : Obligations.DecodeOfEncode := by
  intro i hi
  have command {w : BitVec 24} {j : Instr} (h : decodeCommand w = j) : decode (.cmd w) = .ok j := congrArg Except.ok h
  have putc {cp : BitVec 21} {j : Instr} (h : decodePutc cp = j) : decode (.cmd (commandWord 2#3 cp)) = .ok j :=
    command ((decodeCommand_putcWord cp).trans h)
  have round {r : BitVec 6} {j : Instr} (h : roundOp r = j) : decode (.useq (microWord .rnd r)) = .ok j :=
    (decode_microWord .rnd r).trans (congrArg Except.ok h)
  cases i with
  | start | finish => rfl
  | putcEnc1 cp => exact putc (decodePutc_of_inForm1 ((wellFormed_putcEnc1 cp).mp hi))
  | putcEnc2 cp => exact putc (decodePutc_of_inForm2 ((wellFormed_putcEnc2 cp).mp hi))
  | putcEnc3 cp => exact putc (decodePutc_of_inForm3 ((wellFormed_putcEnc3 cp).mp hi))
  | putcEnc4 cp => exact putc (decodePutc_of_inForm4 ((wellFormed_putcEnc4 cp).mp hi))
  | putcBad cp => exact putc (decodePutc_of_notScalar ((wellFormed_putcBad cp).mp hi))
  | reservedOp0 x => exact command (decodeCommand_op0 x)
  | reservedStartArg arg => exact command (decodeCommand_startArg (bne_iff_ne.mp hi))
  | reservedFinishArg arg => exact command (decodeCommand_finishArg (bne_iff_ne.mp hi))
  | reservedOp4to7 x => exact command (decodeCommand_op4to7 x)
  | pad => exact decode_microWord .pad 0#6
  | loadw => exact decode_microWord .loadw 0#6
  | rndq0 k => exact round (roundOp_roundIndex0 k)
  | rndq1 k => exact round (roundOp_roundIndex1 k)
  | rndq2 k => exact round (roundOp_roundIndex2 k)
  | rndq3 k => exact round (roundOp_roundIndex3 k)
  | fold => exact decode_microWord .fold 0#6
  | ser => exact decode_microWord .ser 0#6

/-- Settles O3: a command word is put together from its fields, a micro-step code from the position it names. -/
theorem encodeOfDecode : Obligations.EncodeOfDecode := by
  intro c i h
  cases c with
  | cmd w =>
    rw [← Except.ok.inj h]
    exact wellFormed_encode_decodeCommand w
  | useq w =>
    obtain ⟨u, r, hpos, rfl⟩ := decode_useq_ok h
    obtain ⟨rfl, hr⟩ := decodePosition_ok hpos
    exact wellFormed_encode_microOp hr

/-! ### The rows that cover a word -/

theorem and_mask_of_covers {row : OpcodeRow 24} {w : BitVec 24} (h : row.covers w = true) : w &&& row.mask = row.value :=
  beq_iff_eq.mp (Bool.and_eq_true_iff.mp h).1

theorem allowed_of_covers {row : OpcodeRow 24} {w : BitVec 24} (h : row.covers w = true) : row.allowed w = true :=
  (Bool.and_eq_true_iff.mp h).2

theorem opField_and_of_covers {row : OpcodeRow 24} {w : BitVec 24} (h : row.covers w = true) :
    opField w &&& opField row.mask = opField row.value := by
  rw [← and_mask_of_covers h, opField, opField, opField, BitVec.extractLsb'_and]

/-- A row whose mask reads all of `op` covers words of one operation code only. -/
theorem opField_of_covers {row : OpcodeRow 24} {w : BitVec 24} {op : BitVec 3} (h : row.covers w = true)
    (hmask : opField row.mask = 7#3) (hvalue : opField row.value = op) : opField w = op := by
  have hop := opField_and_of_covers h
  rw [hmask, hvalue] at hop
  exact BitVec.and_allOnes.symm.trans hop

theorem eq_value_of_covers {row : OpcodeRow 24} {w : BitVec 24} (h : row.covers w = true) (hmask : row.mask = 0xffffff#24) :
    w = row.value := by
  rw [← and_mask_of_covers h, hmask]
  exact BitVec.and_allOnes.symm

/-- A row whose mask reads bit 23 alone covers words of operation codes 4 to 7 only. -/
theorem four_le_opField_of_covers {row : OpcodeRow 24} {w : BitVec 24} (h : row.covers w = true)
    (hmask : opField row.mask = 4#3) (hvalue : opField row.value = 4#3) : 4 ≤ (opField w).toNat := by
  have hop : opField w &&& 4#3 = 4#3 := by rw [← hmask, opField_and_of_covers h, hvalue, hmask]
  generalize opField w = op at hop
  revert op
  decide

/-- R73: a word that a row covers decodes to that row. -/
theorem commandRow_of_covers {w : BitVec 24} {m : Nat} {row : OpcodeRow 24} (hget : commandRows[m]? = some row)
    (h : row.covers w = true) : (decodeCommand w).commandRow = some m := by
  have hm : m < 11 := (List.getElem?_eq_some_iff.mp hget).1
  have hallowed := allowed_of_covers h
  interval_cases m <;> obtain rfl := Option.some.inj hget
  · rw [eq_value_of_covers h rfl]; rfl
  · have hcp : cpOf w ≤ 0x7F := of_decide_eq_true hallowed
    rw [decodeCommand_of_op2 (opField_of_covers h rfl rfl), decodePutc_of_inForm1 hcp]; rfl
  · have hcp : 0x80 ≤ cpOf w ∧ cpOf w ≤ 0x7FF := of_decide_eq_true hallowed
    rw [decodeCommand_of_op2 (opField_of_covers h rfl rfl), decodePutc_of_inForm2 hcp]; rfl
  · have hcp : 0x800 ≤ cpOf w ∧ cpOf w ≤ 0xD7FF ∨ 0xE000 ≤ cpOf w ∧ cpOf w ≤ 0xFFFF := of_decide_eq_true hallowed
    rw [decodeCommand_of_op2 (opField_of_covers h rfl rfl), decodePutc_of_inForm3 hcp]; rfl
  · have hcp : 0x10000 ≤ cpOf w ∧ cpOf w ≤ 0x10FFFF := of_decide_eq_true hallowed
    rw [decodeCommand_of_op2 (opField_of_covers h rfl rfl), decodePutc_of_inForm4 hcp]; rfl
  · have hbad : notScalar (argField w) := (of_decide_eq_true hallowed).imp_right And.left
    rw [decodeCommand_of_op2 (opField_of_covers h rfl rfl), decodePutc_of_notScalar hbad]; rfl
  · rw [eq_value_of_covers h rfl]; rfl
  · rw [decodeCommand_of_op0 (opField_of_covers h rfl rfl)]; rfl
  · rw [decodeCommand_of_op1 (opField_of_covers h rfl rfl), if_neg (bne_iff_ne.mp hallowed)]; rfl
  · rw [decodeCommand_of_op3 (opField_of_covers h rfl rfl), if_neg (bne_iff_ne.mp hallowed)]; rfl
  · rw [decodeCommand_of_op4to7 (four_le_opField_of_covers h rfl rfl)]; rfl

open Laws.RowCoversEncoding in
/-- The code of every well-formed instruction falls under the instruction's own row, one arm per constructor. -/
theorem rowCoversEncoding : ∀ i : Instr, Statement i
  | .start => start
  | .putcEnc1 cp => putcEnc1 cp
  | .putcEnc2 cp => putcEnc2 cp
  | .putcEnc3 cp => putcEnc3 cp
  | .putcEnc4 cp => putcEnc4 cp
  | .putcBad cp => putcBad cp
  | .finish => finish
  | .reservedOp0 x => reservedOp0 x
  | .reservedStartArg arg => reservedStartArg arg
  | .reservedFinishArg arg => reservedFinishArg arg
  | .reservedOp4to7 x => reservedOp4to7 x
  | .pad => pad
  | .loadw => loadw
  | .rndq0 k => rndq0 k
  | .rndq1 k => rndq1 k
  | .rndq2 k => rndq2 k
  | .rndq3 k => rndq3 k
  | .fold => fold
  | .ser => ser

/-- The row of a word's instruction covers the word. -/
theorem covers_commandRow (w : BitVec 24) :
    ∃ n row, (decodeCommand w).commandRow = some n ∧ commandRows[n]? = some row ∧ row.covers w = true := by
  obtain ⟨hwf, hcode⟩ := wellFormed_encode_decodeCommand w
  have hown := rowCoversEncoding (decodeCommand w) hwf
  rwa [hcode] at hown

/-- Settles O4: the decoded instruction's row covers the word, and a row that covers it is that one. -/
theorem everyCommandWordHasOneRow : Obligations.EveryCommandWordHasOneRow := by
  intro w
  obtain ⟨n, row, hrow, hget, hcovers⟩ := covers_commandRow w
  refine ⟨n, hrow, fun m hm => ⟨fun h => ?_, ?_⟩⟩
  · have hm' := commandRow_of_covers (List.getElem?_eq_getElem hm) h
    exact Option.some.inj (hm'.symm.trans hrow)
  · rintro rfl
    rw [Option.some.inj ((List.getElem?_eq_getElem hm).symm.trans hget)]
    exact hcovers

end Sys2Proof
end

section
/-! PROOFS. A code placed where the next step takes it (44_host_interface.md R137, assumption log entry 16). -/

namespace Sys2Proof.Machine

/-! ### From the bits of a table row to a code -/

theorem decodeTableWord_eq_some {n w : Nat} {i : Instr} (h : decodeTableWord n w = some i) :
    ∃ c, tableCode n w = some c ∧ decode c = .ok i := by
  unfold decodeTableWord at h
  split at h
  · cases h
  · rename_i c hc
    refine ⟨c, hc, ?_⟩
    cases hd : decode c with
    | ok j => rw [hd] at h; exact congrArg Except.ok (Option.some.inj h)
    | error e => rw [hd] at h; cases h

theorem tableCode_24 {w : Nat} {c : CodeWord} (h : tableCode 24 w = some c) : ∃ v, c = .cmd v := by
  simp only [tableCode, Nat.reduceLeDiff, if_false, if_true] at h
  split at h
  · exact ⟨_, (Option.some.inj h).symm⟩
  · cases h

theorem tableCode_16 {w : Nat} {c : CodeWord} (h : tableCode 16 w = some c) : ∃ v, c = .useq v := by
  simp only [tableCode, Nat.le_refl, if_true] at h
  split at h
  · exact ⟨_, (Option.some.inj h).symm⟩
  · cases h

theorem withFetchWord_of_tableCode {n w : Nat} {c : CodeWord} (s : State) (h : tableCode n w = some c) :
    s.withFetchWord n w = placeCode c s := by
  rw [State.withFetchWord, h]

/-! ### The step after a placement -/

/-- The host's next move issues the word, at a free port. -/
theorem step_placeCommand (w : BitVec 24) (s : State) :
    step (placeCommand w s) = exec (decodeCommand w) { s with cmd := none } :=
  step_of_run (nextEvent_issue_free rfl rfl)

/-- The host yields, and the sequencer runs the micro-operation at its position. -/
theorem step_placeMicro (u : MicroStep) (r : BitVec 6) (s : State) :
    step (placeMicro u r s) = exec (microOp u r) { s with phase := .busy, ustep := u, i := r } :=
  step_of_busy_turn (nextEvent_yield rfl) rfl

theorem placeCode_of_position {w : BitVec 9} {u : MicroStep} {r : BitVec 6} (s : State) (h : decodePosition w = .ok (u, r)) :
    placeCode (.useq w) s = placeMicro u r s := by
  simp only [placeCode, h]

/-- Settles O7: 24 bits are a word for the host to issue, 16 bits name a position for the sequencer. -/
theorem placedWordRunsNext : Obligations.PlacedWordRunsNext := by
  refine ⟨fun s w i h => ?_, fun s w i h => ?_⟩
  · obtain ⟨c, hc, hd⟩ := decodeTableWord_eq_some h
    obtain ⟨v, rfl⟩ := tableCode_24 hc
    rw [withFetchWord_of_tableCode s hc, ← Except.ok.inj hd]
    exact step_placeCommand v s
  · obtain ⟨c, hc, hd⟩ := decodeTableWord_eq_some h
    obtain ⟨v, rfl⟩ := tableCode_16 hc
    obtain ⟨u, r, hpos, rfl⟩ := decode_useq_ok hd
    rw [withFetchWord_of_tableCode s hc, placeCode_of_position s hpos]
    exact ⟨u, r, rfl, step_placeMicro u r s⟩

end Sys2Proof.Machine
end

section
/-! PROOFS. The schedule index (30_encoding.md R75, R76): the factors 1, 5, 3 and 7 are odd, so each quarter's formula can be
solved for the round. -/

namespace Sys2Proof.Machine

theorem indexMod16_congr {m n : Nat} (h : m % 16 = n % 16) : indexMod16 m = indexMod16 n := Fin.ext h

/-- R75: the schedule index of a round, by the quarter that its number lies in. -/
theorem val_scheduleIndex (r : BitVec 6) :
    (scheduleIndex r).val =
      if r.toNat < 16 then r.toNat % 16
      else if r.toNat < 32 then (5 * r.toNat + 1) % 16
      else if r.toNat < 48 then (3 * r.toNat + 5) % 16
      else 7 * r.toNat % 16 := by
  unfold scheduleIndex
  split_ifs <;> rfl

/-- The round of quarter `q` that uses word `g`: 13, 11 and 7 are the inverses of 5, 3 and 7 modulo 16. -/
def roundUsing (q : Nat) (g : Fin 16) : Nat :=
  match q with
  | 0 => g.val
  | 1 => 13 * (g.val + 15) % 16
  | 2 => 11 * (g.val + 11) % 16
  | _ => 7 * g.val % 16

theorem roundUsing_lt (q : Nat) (g : Fin 16) : roundUsing q g < 16 := by
  unfold roundUsing
  split
  · exact g.isLt
  all_goals exact Nat.mod_lt _ (by decide)

/-- R76: in each quarter exactly one round uses a word. -/
theorem scheduleIndex_eq_iff {q k : Nat} (hq : q < 4) (hk : k < 16) (g : Fin 16) :
    scheduleIndex (BitVec.ofNat 6 (16 * q + k)) = g ↔ k = roundUsing q g := by
  have hr : (BitVec.ofNat 6 (16 * q + k)).toNat = 16 * q + k := by
    rw [BitVec.toNat_ofNat, Nat.mod_eq_of_lt (by omega)]
  have hg := g.isLt
  rw [Fin.ext_iff, val_scheduleIndex, hr]
  interval_cases q <;> simp only [roundUsing]
  · rw [if_pos (by omega)]
    omega
  · rw [if_neg (by omega), if_pos (by omega)]
    omega
  · rw [if_neg (by omega), if_neg (by omega), if_pos (by omega)]
    omega
  · rw [if_neg (by omega), if_neg (by omega), if_neg (by omega)]
    omega

/-- R76: the formulas read `i[3:0]` alone. -/
theorem index_congr {r r' : BitVec 6} (h : r.toNat % 16 = r'.toNat % 16) :
    index0 r = index0 r' ∧ index1 r = index1 r' ∧ index2 r = index2 r' ∧ index3 r = index3 r' :=
  ⟨indexMod16_congr h, indexMod16_congr (by omega), indexMod16_congr (by omega), indexMod16_congr (by omega)⟩

/-- Settles O11: the table is computed; a quarter's formula is solved for the round by the inverse of its factor. -/
theorem scheduleIndexOfEveryRound : Obligations.ScheduleIndexOfEveryRound := by
  refine ⟨by decide, fun r r' h => index_congr h, fun g q hq => ⟨roundUsing q g, roundUsing_lt q g, ?_, fun k hk h => ?_⟩⟩
  · exact (scheduleIndex_eq_iff hq (roundUsing_lt q g) g).mpr rfl
  · exact (scheduleIndex_eq_iff hq hk g).mp h

end Sys2Proof.Machine
end

section
/-! PROOFS. The encoder (30_encoding.md R77, 40_encoder.md R90 to R97): the bytes of each form as numbers, what PUTC appends, and
the bytes of a string, read back character by character. -/

namespace Sys2Proof.Machine

/-! ### The bytes of the forms -/

/-- A marker plus a field of the operand, as a number. -/
theorem marker_add_field (marker : Byte) (cp : BitVec 21) (lo n : Nat) :
    marker + (cp.extractLsb' lo n).setWidth 8 = BitVec.ofNat 8 (marker.toNat + cp.toNat / 2 ^ lo % 2 ^ n) := by
  apply BitVec.eq_of_toNat_eq
  simp [Nat.shiftRight_eq_div_pow]

theorem continuation_eq_ofNat (cp : BitVec 21) (lo : Nat) :
    continuation cp lo = BitVec.ofNat 8 (0x80 + cp.toNat / 2 ^ lo % 2 ^ 6) :=
  marker_add_field 0x80#8 cp lo 6

theorem continuation_zero_eq_ofNat (cp : BitVec 21) : continuation cp 0 = BitVec.ofNat 8 (0x80 + cp.toNat % 2 ^ 6) := by
  rw [continuation_eq_ofNat, pow_zero, Nat.div_one]

theorem utf8One_eq_ofNat (cp : BitVec 21) : utf8One cp = [BitVec.ofNat 8 (cp.toNat % 2 ^ 7)] := by
  have h := marker_add_field 0#8 cp 0 7
  rw [BitVec.zero_add, pow_zero, Nat.div_one, BitVec.toNat_zero, Nat.zero_add] at h
  rw [utf8One, h]

theorem utf8Two_eq_ofNat (cp : BitVec 21) :
    utf8Two cp = [BitVec.ofNat 8 (0xC0 + cp.toNat / 2 ^ 6 % 2 ^ 5), BitVec.ofNat 8 (0x80 + cp.toNat % 2 ^ 6)] := by
  rw [utf8Two, marker_add_field, continuation_zero_eq_ofNat]
  rfl

theorem utf8Three_eq_ofNat (cp : BitVec 21) :
    utf8Three cp = [BitVec.ofNat 8 (0xE0 + cp.toNat / 2 ^ 12 % 2 ^ 4), BitVec.ofNat 8 (0x80 + cp.toNat / 2 ^ 6 % 2 ^ 6),
      BitVec.ofNat 8 (0x80 + cp.toNat % 2 ^ 6)] := by
  rw [utf8Three, marker_add_field, continuation_eq_ofNat, continuation_zero_eq_ofNat]
  rfl

theorem utf8Four_eq_ofNat (cp : BitVec 21) :
    utf8Four cp = [BitVec.ofNat 8 (0xF0 + cp.toNat / 2 ^ 18 % 2 ^ 3), BitVec.ofNat 8 (0x80 + cp.toNat / 2 ^ 12 % 2 ^ 6),
      BitVec.ofNat 8 (0x80 + cp.toNat / 2 ^ 6 % 2 ^ 6), BitVec.ofNat 8 (0x80 + cp.toNat % 2 ^ 6)] := by
  rw [utf8Four, marker_add_field, continuation_eq_ofNat, continuation_eq_ofNat, continuation_zero_eq_ofNat]
  rfl

/-! ### What PUTC appends (R139) -/

/-- The state `t` is `s` with `bytes` appended to the message, and nothing else changed. -/
structure Appended (bytes : List Byte) (s t : State) : Prop where
  inside : ∀ k v, bytes[k]? = some v → memRead1 t (s.len + k) = v
  outside : ∀ x, x < s.len ∨ s.len + bytes.length ≤ x → memRead1 t x = memRead1 s x
  frame : t = { s with pb := t.pb, len := s.len + bytes.length }

/-- Reads of the buffer do not see `len`, so those of the write are those of the next state. -/
theorem appendBytes_appended {bytes : List Byte} {s : State} (hroom : capacityFits s.cap (s.len + bytes.length + 9) = true) :
    Appended bytes s (appendBytes bytes s) := by
  obtain ⟨_, he⟩ | ⟨hfull, _⟩ := appendBytes_cases bytes s
  · rw [he]
    refine ⟨fun k v hv => ?_, fun x hx => memRead1_memWriteBytes_outside s s.len x bytes hx, rfl⟩
    obtain ⟨hk, rfl⟩ := List.getElem?_eq_some_iff.mp hv
    exact memRead1_memWriteBytes_inside s s.len k bytes hk
  · exact absurd (hroom.symm.trans hfull) (by decide)

/-- In ABSORB, a command that appends bytes for which there is room answers the state with them appended. -/
theorem command_appendBytes {s : State} (hp : s.phase = .absorb) (code : CodeWord) {bytes : List Byte}
    (hroom : capacityFits s.cap (s.len + bytes.length + 9) = true) :
    ∃ t, command code s (inAbsorb s (.next (appendBytes bytes s))) = .next t ∧ Appended bytes s t := by
  refine ⟨appendBytes bytes s, ?_, appendBytes_appended hroom⟩
  rw [command_accepts _ (by rw [hp]; decide) (by rw [hp]; decide), inAbsorb, if_pos hp]

/-- Settles O17: the one byte of `utf8One` is appended. -/
theorem putcEnc1AppendsOneByte : Obligations.PutcEnc1AppendsOneByte := by
  intro cp s hform hp hroom
  obtain ⟨t, hexec, ht⟩ := command_appendBytes hp (encode (.putcEnc1 cp)) (bytes := utf8One cp) hroom
  rw [utf8One_eq_ofNat] at ht
  exact ⟨decodePutc_of_inForm1 hform, t, hexec, ht.inside 0 _ rfl,
    fun x hx => ht.outside x (Nat.lt_or_gt_of_ne hx), ht.frame⟩

/-- Settles O18: the two bytes of `utf8Two` are appended. -/
theorem putcEnc2AppendsTwoBytes : Obligations.PutcEnc2AppendsTwoBytes := by
  intro cp s hform hp hroom
  obtain ⟨t, hexec, ht⟩ := command_appendBytes hp (encode (.putcEnc2 cp)) (bytes := utf8Two cp) hroom
  rw [utf8Two_eq_ofNat] at ht
  exact ⟨decodePutc_of_inForm2 hform, t, hexec, ht.inside 0 _ rfl, ht.inside 1 _ rfl, ht.outside, ht.frame⟩

/-- Settles O19: the three bytes of `utf8Three` are appended. -/
theorem putcEnc3AppendsThreeBytes : Obligations.PutcEnc3AppendsThreeBytes := by
  intro cp s hform hp hroom
  obtain ⟨t, hexec, ht⟩ := command_appendBytes hp (encode (.putcEnc3 cp)) (bytes := utf8Three cp) hroom
  rw [utf8Three_eq_ofNat] at ht
  exact ⟨decodePutc_of_inForm3 hform, t, hexec, ht.inside 0 _ rfl, ht.inside 1 _ rfl, ht.inside 2 _ rfl,
    ht.outside, ht.frame⟩

/-- Settles O20: the four bytes of `utf8Four` are appended, and `0x10FFFF` has the greatest leading field. -/
theorem putcEnc4AppendsFourBytes : Obligations.PutcEnc4AppendsFourBytes := by
  intro cp s hform hp hroom
  obtain ⟨t, hexec, ht⟩ := command_appendBytes hp (encode (.putcEnc4 cp)) (bytes := utf8Four cp) hroom
  rw [utf8Four_eq_ofNat] at ht
  have hlead : cp.toNat / 2 ^ 18 ≤ 4 := by
    simp only [inForm] at hform
    omega
  exact ⟨hlead, decodePutc_of_inForm4 hform, t, hexec, ht.inside 0 _ rfl, ht.inside 1 _ rfl,
    ht.inside 2 _ rfl, ht.inside 3 _ rfl, ht.outside, ht.frame⟩

/-! ### One character's bytes (R90) -/

/-- The form that `utf8` gives an operand, by its range. -/
theorem utf8_cases (cp : BitVec 21) :
    (cp.toNat ≤ 0x7F ∧ utf8 cp = utf8One cp) ∨ (cp.toNat ≤ 0x7FF ∧ utf8 cp = utf8Two cp) ∨
      (cp.toNat ≤ 0xFFFF ∧ utf8 cp = utf8Three cp) ∨ utf8 cp = utf8Four cp := by
  unfold utf8
  split_ifs with h1 h2 h3
  · exact .inl ⟨h1, rfl⟩
  · exact .inr (.inl ⟨h2, rfl⟩)
  · exact .inr (.inr (.inl ⟨h3, rfl⟩))
  · exact .inr (.inr (.inr rfl))

theorem length_utf8_bounds (cp : BitVec 21) : 1 ≤ (utf8 cp).length ∧ (utf8 cp).length ≤ 4 := by
  obtain ⟨_, h⟩ | ⟨_, h⟩ | ⟨_, h⟩ | h := utf8_cases cp <;> rw [h]
  · simp [utf8One]
  · simp [utf8Two]
  · simp [utf8Three]
  · simp [utf8Four]

/-- How many bytes a character has, by its first byte. -/
def formLength (lead : Byte) : Nat :=
  if lead.toNat < 0x80 then 1 else if lead.toNat < 0xE0 then 2 else if lead.toNat < 0xF0 then 3 else 4

/-- The operand that the bytes of one character stand for. -/
def utf8Value : List Byte → Nat
  | [x] => x.toNat
  | [x, y] => x.toNat % 2 ^ 5 * 2 ^ 6 + y.toNat % 2 ^ 6
  | [x, y, z] => x.toNat % 2 ^ 4 * 2 ^ 12 + y.toNat % 2 ^ 6 * 2 ^ 6 + z.toNat % 2 ^ 6
  | [x, y, z, u] => x.toNat % 2 ^ 3 * 2 ^ 18 + y.toNat % 2 ^ 6 * 2 ^ 12 + z.toNat % 2 ^ 6 * 2 ^ 6 + u.toNat % 2 ^ 6
  | _ => 0

theorem formLength_ofNat {n : Nat} (h : n < 2 ^ 8) :
    formLength (BitVec.ofNat 8 n) = if n < 0x80 then 1 else if n < 0xE0 then 2 else if n < 0xF0 then 3 else 4 := by
  rw [formLength, BitVec.toNat_ofNat, Nat.mod_eq_of_lt h]

/-- The first byte tells the number of bytes, so no character's bytes begin another's: the first bytes of the four forms lie in
`0x00 .. 0x7F`, `0xC0 .. 0xDF`, `0xE0 .. 0xEF` and `0xF0 .. 0xF7`. -/
theorem utf8_eq_cons (cp : BitVec 21) : ∃ lead rest, utf8 cp = lead :: rest ∧ (utf8 cp).length = formLength lead := by
  obtain ⟨_, h⟩ | ⟨_, h⟩ | ⟨_, h⟩ | h := utf8_cases cp <;> rw [h]
  · rw [utf8One_eq_ofNat]
    refine ⟨_, _, rfl, ?_⟩
    rw [formLength_ofNat (by omega), if_pos (by omega)]
    rfl
  · rw [utf8Two_eq_ofNat]
    refine ⟨_, _, rfl, ?_⟩
    rw [formLength_ofNat (by omega), if_neg (by omega), if_pos (by omega)]
    rfl
  · rw [utf8Three_eq_ofNat]
    refine ⟨_, _, rfl, ?_⟩
    rw [formLength_ofNat (by omega), if_neg (by omega), if_neg (by omega), if_pos (by omega)]
    rfl
  · rw [utf8Four_eq_ofNat]
    refine ⟨_, _, rfl, ?_⟩
    rw [formLength_ofNat (by omega), if_neg (by omega), if_neg (by omega), if_neg (by omega)]
    rfl

theorem utf8Value_utf8 (cp : BitVec 21) : utf8Value (utf8 cp) = cp.toNat := by
  have hcp := cp.isLt
  obtain ⟨hle, h⟩ | ⟨hle, h⟩ | ⟨hle, h⟩ | h := utf8_cases cp <;> rw [h]
  · rw [utf8One_eq_ofNat, utf8Value, BitVec.toNat_ofNat]
    omega
  · rw [utf8Two_eq_ofNat, utf8Value, BitVec.toNat_ofNat, BitVec.toNat_ofNat]
    omega
  · rw [utf8Three_eq_ofNat, utf8Value, BitVec.toNat_ofNat, BitVec.toNat_ofNat, BitVec.toNat_ofNat]
    omega
  · rw [utf8Four_eq_ofNat, utf8Value, BitVec.toNat_ofNat, BitVec.toNat_ofNat, BitVec.toNat_ofNat, BitVec.toNat_ofNat]
    omega

theorem utf8_injective : Function.Injective utf8 := by
  intro x y h
  exact BitVec.eq_of_toNat_eq (by rw [← utf8Value_utf8 x, h, utf8Value_utf8 y])

theorem utf8_ne_nil (cp : BitVec 21) : utf8 cp ≠ [] := List.ne_nil_of_length_pos (length_utf8_bounds cp).1

/-- A character can be read off the front of a message in one way. -/
theorem utf8_append_inj {x y : BitVec 21} {p q : List Byte} (h : utf8 x ++ p = utf8 y ++ q) : x = y ∧ p = q := by
  obtain ⟨b, r, hx, hlx⟩ := utf8_eq_cons x
  obtain ⟨c, r', hy, hly⟩ := utf8_eq_cons y
  have hlead : b = c := by
    rw [hx, hy] at h
    exact (List.cons.inj h).1
  obtain ⟨hbytes, hrest⟩ := List.append_inj h (by rw [hlx, hly, hlead])
  exact ⟨utf8_injective hbytes, hrest⟩

/-! ### The bytes of a string (R97) -/

@[simp] theorem message_nil : message [] = [] := rfl

@[simp] theorem message_cons (cp : BitVec 21) (cps : List (BitVec 21)) : message (cp :: cps) = utf8 cp ++ message cps :=
  List.flatMap_cons

theorem message_append (xs ys : List (BitVec 21)) : message (xs ++ ys) = message xs ++ message ys := List.flatMap_append

theorem length_message_bounds (cps : List (BitVec 21)) :
    cps.length ≤ (message cps).length ∧ (message cps).length ≤ 4 * cps.length := by
  induction cps with
  | nil => exact ⟨Nat.le_refl 0, Nat.le_refl 0⟩
  | cons cp cps ih =>
    have hcp := length_utf8_bounds cp
    rw [message_cons, List.length_append, List.length_cons]
    omega

theorem message_injective : Function.Injective message := by
  intro xs
  induction xs with
  | nil =>
    intro ys h
    cases ys with
    | nil => rfl
    | cons y ys => exact absurd (List.append_eq_nil_iff.mp h.symm).1 (utf8_ne_nil y)
  | cons x xs ih =>
    intro ys h
    cases ys with
    | nil => exact absurd (List.append_eq_nil_iff.mp h).1 (utf8_ne_nil x)
    | cons y ys =>
      obtain ⟨hhead, htail⟩ := utf8_append_inj h
      rw [hhead, ih htail]

/-- Settles O54: `message` tells all lists of operands apart, whether or not they are scalar values. -/
theorem messageBytesDetermineString : Obligations.MessageBytesDetermineString :=
  fun _ _ _ _ h => message_injective h

/-- Settles O55: the bounds of one character, added up, and `flatMap` of a concatenation. -/
theorem messageLengthBounds : Obligations.MessageLengthBounds := ⟨length_message_bounds, message_append⟩

end Sys2Proof.Machine
end

section
/-! PROOFS. The padder (41_padder.md R104, R105, R107): the sizes of the padding, what PAD leaves at each address, and its next
state. -/

namespace Sys2Proof.Machine

/-! ### Sizes (R105) -/

/-- No smaller multiple of 64 leaves the nine bytes of marker and length. -/
theorem paddedLength_le_of_room {l m : Nat} (h : l + 9 ≤ 64 * m) : paddedLength l ≤ 64 * m := by
  rw [paddedLength_eq_blocks]
  omega

theorem paddedLength_div_eq (l : Nat) : paddedLength l / 64 = (l + 8) / 64 + 1 := by
  rw [paddedLength_eq_blocks, Nat.mul_div_cancel_left _ (by decide)]

/-- Settles O14: the clauses on `Z` are its own formula, those on `P` and the block count follow from `P` as whole blocks. -/
theorem paddingSizes : Obligations.PaddingSizes := by
  intro l
  have hz : zeroBytes l = (119 - l % 64) % 64 := rfl
  have hp : paddedLength l = l + 1 + zeroBytes l + 8 := rfl
  have hn := paddedLength_div_eq l
  exact ⟨by omega, by omega, by omega, hp, paddedLength_eq_blocks l, by omega, fun _ => paddedLength_le_of_room, hn,
    by omega, by omega, by omega⟩

/-! ### The buffer after PAD, address by address (R107) -/

/-- The trailer writes nothing below it, where the marker and the zero bytes stand. -/
theorem memRead1_padBuffer_below_trailer {s : State} {x : Nat} (hx : x < s.len + 1 + zeroBytes s.len) :
    memRead1 (padBuffer s) x =
      memRead1 (memWriteBytes (memWriteBytes s s.len [0x80#8]) (s.len + 1) (List.replicate (zeroBytes s.len) 0x00#8)) x := by
  rw [padBuffer_eq_writes, memRead1_memWriteBytes_outside _ _ _ _ (.inl (by omega)),
    memRead1_memWriteBytes_outside _ _ _ _ (.inl hx)]

theorem memRead1_padBuffer_marker (s : State) : memRead1 (padBuffer s) s.len = 0x80#8 := by
  rw [memRead1_padBuffer_below_trailer (by omega), memRead1_memWriteBytes_outside _ _ _ _ (.inl (by omega))]
  exact memRead1_memWrite1_same s s.len 0x80#8

theorem memRead1_padBuffer_zero (s : State) {k : Nat} (hk : k < zeroBytes s.len) :
    memRead1 (padBuffer s) (s.len + 1 + k) = 0x00#8 := by
  rw [memRead1_padBuffer_below_trailer (by omega), memRead1_memWriteBytes_inside _ _ _ _ (by simpa using hk),
    List.getElem_replicate]

theorem memRead1_padBuffer_trailer (s : State) {k : Nat} (hk : k < 8) :
    memRead1 (padBuffer s) (paddedLength s.len - 8 + k) = lengthByte s.len k := by
  rw [paddedLength_eq_blocks]
  exact memRead1_of_cell (padBuffer_endsInLength s k hk)

theorem memRead1_padBuffer_outside {s : State} {x : Nat} (hx : x < s.len ∨ paddedLength s.len ≤ x) :
    memRead1 (padBuffer s) x = memRead1 s x := by
  have hp : paddedLength s.len = s.len + 1 + zeroBytes s.len + 8 := rfl
  rw [padBuffer_eq_writes]
  iterate 4 rw [memRead1_memWriteBytes_outside _ _ _ _ (by simp; omega)]

/-! ### The next state of PAD -/

/-- A buffer is whole blocks, so what leaves room for marker and length leaves room for the padding (R139). -/
theorem capacityFits_paddedLength {cap : Capacity} {l : Nat} (h : capacityFits cap (l + 9) = true) :
    capacityFits cap (paddedLength l) = true := by
  have hup : paddedLength l = 64 * ((l + 9 + 63) / 64) := by rw [paddedLength_eq_blocks]; omega
  rw [hup]
  exact capacityFits_roundUp cap (l + 9) h

/-- A read of the buffer sees its cells and the draw of its unlisted bytes, and no register. -/
theorem memRead1_congr {s t : State} (hpb : t.pb = s.pb) (hdraw : t.pbDraw = s.pbDraw) (x : Nat) :
    memRead1 t x = memRead1 s x := by
  rw [memRead1, memRead1, hpb, hdraw]

/-- PAD answers the buffer of `padBuffer`, and changes no register but `nblk` and the sequencer (R107). -/
theorem execPad_of_room {s : State} (hp : s.phase = .busy) (hu : s.ustep = .pad)
    (hroom : capacityFits s.cap (s.len + 9) = true) :
    ∃ t, execPad s = .next t ∧ (∀ x, memRead1 t x = memRead1 (padBuffer s) x) ∧
      t = { s with pb := t.pb, nblk := paddedLength s.len / 64, ustep := .loadw, blk := 0, i := t.i, draws := t.draws } := by
  refine ⟨seqToBlock .loadw 0 { padBuffer s with nblk := paddedLength s.len / 64 }, ?answer, ?reads, ?frame⟩
  case answer => rw [execPad, enabledAt_of_enabled _ hp hu, withinBuffer_of_fits (capacityFits_paddedLength hroom)]
  case reads => exact memRead1_congr (seqToBlock_pb _ _ _) (seqToBlock_pbDraw _ _ _)
  case frame => simp [seqToBlock, seqTo, hp]

/-- Settles O29: the bytes of the next state are those that `padBuffer` leaves, region by region. -/
theorem padAppendsPadding : Obligations.PadAppendsPadding := by
  intro s hp hu hroom
  obtain ⟨t, hexec, hread, hframe⟩ := execPad_of_room hp hu hroom
  refine ⟨t, hexec, ?marker, ?zeros, ?trailer, ?outside, hframe⟩
  case marker => exact (hread s.len).trans (memRead1_padBuffer_marker s)
  case zeros =>
    intro k hpos hk
    obtain ⟨m, rfl⟩ := Nat.exists_eq_add_of_le hpos
    rw [← Nat.add_assoc, hread, memRead1_padBuffer_zero s (by rw [zeroBytes]; omega)]
  case trailer => exact fun k hk => (hread _).trans (memRead1_padBuffer_trailer s hk)
  case outside => exact fun x hx => (hread x).trans (memRead1_padBuffer_outside hx)

end Sys2Proof.Machine
end

section
/-! PROOFS. The constants of the block compressor and its mixing functions (42_block_compressor.md R113 to R118). -/

namespace Sys2Proof.Machine

/-! ### The mixing functions in a bit position (R113 to R116) -/

theorem getLsbD_mix0 (b c d : Word) {k : Nat} (hk : k < 32) :
    (mix0 b c d).getLsbD k = if b.getLsbD k then c.getLsbD k else d.getLsbD k := by
  simp only [mix0, not32, BitVec.getLsbD_or, BitVec.getLsbD_and, BitVec.getLsbD_not, hk, decide_true, Bool.true_and]
  cases b.getLsbD k <;> simp

/-- R114 selects as R113 does, with `d` in the place of `b`. -/
theorem mix1_eq_mix0 (b c d : Word) : mix1 b c d = mix0 d b c := rfl

theorem getLsbD_mix3 (b c d : Word) {k : Nat} (hk : k < 32) :
    (mix3 b c d).getLsbD k = (c.getLsbD k ^^ (b.getLsbD k || !d.getLsbD k)) := by
  simp only [mix3, not32, BitVec.getLsbD_xor, BitVec.getLsbD_or, BitVec.getLsbD_not, hk, decide_true, Bool.true_and]

/-- Settles O10: a bitwise operation acts in each bit position, and RNDQ1's function selects as RNDQ0's does. -/
theorem mixingFunctionsBitByBit : Obligations.MixingFunctionsBitByBit := by
  intro b c d k hk
  refine ⟨getLsbD_mix0 b c d hk, ?mix1, ?mix2, getLsbD_mix3 b c d hk⟩
  case mix1 => rw [mix1_eq_mix0, getLsbD_mix0 d b c hk]
  case mix2 => rw [mix2, BitVec.getLsbD_xor, BitVec.getLsbD_xor]

/-! ### The tables (R117, R118) -/

/-- The sum of the table, one quarter after the other. -/
theorem foldl_add32_roundConstants : roundConstants.toList.foldl add32 0#32 = 0x27f3a0bc#32 := by
  have h0 : roundConstants0.toList.foldl add32 0#32 = 0x6002dede#32 := by decide
  have h1 : roundConstants1.toList.foldl add32 0x6002dede#32 = 0x7a14b504#32 := by decide
  have h2 : roundConstants2.toList.foldl add32 0x7a14b504#32 = 0xa4cf7177#32 := by decide
  have h3 : roundConstants3.toList.foldl add32 0xa4cf7177#32 = 0x27f3a0bc#32 := by decide
  simp only [roundConstants, Vector.toList_append, List.foldl_append, h0, h1, h2, h3]

theorem foldl_xor_roundConstants : roundConstants.toList.foldl (· ^^^ ·) 0#32 = 0x10e6cc5a#32 := by decide

/-- Four amounts for each quarter `i[5:4]`, chosen by `i[1:0]`. -/
theorem rotationAmount_eq_getD (r : BitVec 6) :
    rotationAmount r =
      [7, 12, 17, 22, 5, 9, 14, 20, 4, 11, 16, 23, 6, 10, 15, 21].getD (4 * (r.toNat / 16) + r.toNat % 4) 0 := by
  revert r
  decide

/-- Settles O12: the two tables are constants, so each check computes. -/
theorem constantTableChecks : Obligations.ConstantTableChecks :=
  ⟨foldl_add32_roundConstants, foldl_xor_roundConstants, rfl, rfl, rfl, rotationAmount_eq_getD⟩

end Sys2Proof.Machine
end

section
/-! PROOFS. The micro-operations of the block compressor (42_block_compressor.md R111 to R116, R120): what LOADW, a round and FOLD
answer. -/

namespace Sys2Proof.Machine

/-! ### LOADW (R111) -/

theorem memRead4_of_bytes {s : State} {addr : Nat} {v : Word} (h : ∀ k, k < 4 → memRead1 s (addr + k) = wordByte v k) :
    memRead4 s addr = v := by
  have hfirst : memRead1 s addr = wordByte v 0 := h 0 (by decide)
  rw [memRead4, hfirst, h 1 (by decide), h 2 (by decide), h 3 (by decide), wordOfBytes_wordByte]

theorem getElem_loadBlock_w (s : State) (j : Fin 16) : (loadBlock s).w[j] = blockWord s j := by
  fin_cases j <;> rfl

theorem execLoadw_of_fits {s : State} (hp : s.phase = .busy) (hu : s.ustep = .loadw)
    (hfits : capacityFits s.cap (64 * s.blk + 64) = true) : execLoadw s = .next (seqTo .rnd s.blk 0#6 (loadBlock s)) := by
  rw [execLoadw, enabledAt_of_enabled _ hp hu, withinBuffer_of_fits hfits]

theorem toNat_trailer (l : Nat) : (trailerLow l).toNat + 2 ^ 32 * (trailerHigh l).toNat = 8 * l % 2 ^ 64 := by
  simp only [trailerLow, trailerHigh, bitLength, BitVec.extractLsb'_toNat, BitVec.toNat_ofNat, Nat.shiftRight_eq_div_pow]
  omega

/-- The last two words of the last block are the trailer that PAD wrote (R107). -/
theorem blockWord_trailer {s : State} (hb : s.BlocksInv) (hlast : s.blk + 1 = s.nblk) :
    blockWord s 14 = trailerLow s.len ∧ blockWord s 15 = trailerHigh s.len := by
  have hbyte {x k : Nat} (hk : k < 8) (hx : x = 64 * s.blk + 56 + k) : memRead1 s x = lengthByte s.len k := by
    have haddr : x = 64 * s.nblk - 8 + k := by omega
    rw [haddr, memRead1_of_cell (hb.trailer k hk)]
  constructor
  · exact memRead4_of_bytes fun k hk => (hbyte (by omega) rfl).trans (wordByte_trailerLow s.len hk).symm
  · exact memRead4_of_bytes fun k hk => (hbyte (k := 4 + k) (by omega) (by omega)).trans (wordByte_trailerHigh s.len hk).symm

theorem State.Inv.blockFits {s : State} (hs : s.Inv) (hp : s.phase = .busy) (hu : s.ustep = .loadw) :
    capacityFits s.cap (64 * s.blk + 64) = true := by
  have hblk := hs.block hp (.inl hu)
  exact capacityFits_mono s.cap (hs.compressing hp (by simp [hu])).room (by omega)

/-- Settles O30: the words are those of the buffer, and the invariant says which they are in the first and the last block. -/
theorem loadwExpandsBlock : Obligations.LoadwExpandsBlock := by
  constructor
  · intro s hp hu hfits
    refine ⟨_, execLoadw_of_fits hp hu hfits, fun j => ?words, ?frame⟩
    case words => rw [seqTo_w, getElem_loadBlock_w, blockWord, memRead4, toNat_wordOfBytes]
    case frame => simp [seqTo, loadBlock, hp]
  · intro s hs hp hu
    have hfits := hs.blockFits hp hu
    refine ⟨hfits, _, execLoadw_of_fits hp hu hfits, fun hzero => ?first, fun hlast => ?last⟩
    case first =>
      simp only [seqTo_a, seqTo_b, seqTo_c, seqTo_d, loadBlock_a, loadBlock_b, loadBlock_c, loadBlock_d,
        hs.firstBlock hp (.inl hu) hzero]
      exact ⟨rfl, rfl, rfl, rfl⟩
    case last =>
      obtain ⟨hlow, hhigh⟩ := blockWord_trailer (hs.compressing hp (by simp [hu])) hlast
      calc (blockWord s 14).toNat + 2 ^ 32 * (blockWord s 15).toNat
          = (trailerLow s.len).toNat + 2 ^ 32 * (trailerHigh s.len).toNat := by rw [hlow, hhigh]
        _ = 8 * s.len % 2 ^ 64 := toNat_trailer s.len

/-! ### The sequencer's move -/

/-- A sequencer that runs already stays in BUSY. -/
theorem seqToBlock_of_busy {s : State} (hp : s.phase = .busy) (u : MicroStep) (n : Nat) :
    seqToBlock u n s =
      { s with ustep := u, blk := n, i := Config.freeRound s.draws, draws := s.draws + 1 } := by
  simp [seqToBlock, seqTo, hp]

/-- The sequencer's move after round `r` of block `n`: the next round, or FOLD after round 63. -/
def afterRound (r : BitVec 6) (n : Nat) (s : State) : State :=
  if r.toNat < 63 then seqTo .rnd n (r + 1#6) s else seqToBlock .fold n s

theorem afterRound_of_lt {r : BitVec 6} (h : r.toNat < 63) (n : Nat) : afterRound r n = seqTo .rnd n (r + 1#6) :=
  funext fun _ => if_pos h

theorem afterRound_last {r : BitVec 6} (h : r.toNat = 63) (n : Nat) : afterRound r n = seqToBlock .fold n :=
  funext fun _ => if_neg (by omega)

/-- Before round 63 a move to the next round of the same block changes `i` only. -/
theorem afterRound_same_block (s : State) {r : BitVec 6} {n b : Nat} (hr : r.toNat = n) (hn : n < 63) (hp : s.phase = .busy)
    (hu : s.ustep = .rnd) (hb : s.blk = b) : afterRound r b s = { s with i := BitVec.ofNat 6 (n + 1) } := by
  have hnext : r + 1#6 = BitVec.ofNat 6 (n + 1) := by
    apply BitVec.eq_of_toNat_eq
    simp [hr]
  rw [afterRound_of_lt (by omega), hnext]
  simp [seqTo, hp, hu, hb]

/-! ### A round by its index (R75, R112 to R116) -/

/-- R75: a round index is its quarter and its low bits. -/
theorem roundIndex_ofNat {q : BitVec 2} {r : BitVec 6} (h : r.toNat / 16 = q.toNat) :
    roundIndex q (BitVec.ofNat 4 r.toNat) = r := by
  apply BitVec.eq_of_toNat_eq
  rw [roundIndex, toNat_append_eq_add, BitVec.toNat_ofNat]
  omega

theorem exec_rndq0 {r : BitVec 6} {n : Nat} (hr : r.toNat = n) (hhi : n < 16) (s : State) :
    exec (.rndq0 (BitVec.ofNat 4 n)) s = roundOf (mix0 s.b s.c s.d) (index0 r) r s (afterRound r s.blk) := by
  subst hr
  rw [exec, execRndq0, roundIndex_ofNat (by rw [BitVec.toNat_ofNat]; omega), afterRound_of_lt (by omega)]

theorem exec_rndq1 {r : BitVec 6} {n : Nat} (hr : r.toNat = n) (hlo : 16 ≤ n) (hhi : n < 32) (s : State) :
    exec (.rndq1 (BitVec.ofNat 4 n)) s = roundOf (mix1 s.b s.c s.d) (index1 r) r s (afterRound r s.blk) := by
  subst hr
  rw [exec, execRndq1, roundIndex_ofNat (by rw [BitVec.toNat_ofNat]; omega), afterRound_of_lt (by omega)]

theorem exec_rndq2 {r : BitVec 6} {n : Nat} (hr : r.toNat = n) (hlo : 32 ≤ n) (hhi : n < 48) (s : State) :
    exec (.rndq2 (BitVec.ofNat 4 n)) s = roundOf (mix2 s.b s.c s.d) (index2 r) r s (afterRound r s.blk) := by
  subst hr
  rw [exec, execRndq2, roundIndex_ofNat (by rw [BitVec.toNat_ofNat]; omega), afterRound_of_lt (by omega)]

theorem exec_rndq3 {r : BitVec 6} {n : Nat} (hr : r.toNat = n) (hlo : 48 ≤ n) (s : State) :
    exec (.rndq3 (BitVec.ofNat 4 n)) s = roundOf (mix3 s.b s.c s.d) (index3 r) r s (afterRound r s.blk) := by
  subst hr
  rw [exec, execRndq3, roundIndex_ofNat (by rw [BitVec.toNat_ofNat]; omega)]
  rfl

/-- The four rows of the rounds are one operation of the round index. -/
theorem exec_roundOp (r : BitVec 6) (s : State) :
    exec (roundOp r) s = roundOf (mixOf r s.b s.c s.d) (scheduleIndex r) r s (afterRound r s.blk) := by
  obtain ⟨h0, h1, h2, h3⟩ := roundOp_eq r
  unfold mixOf scheduleIndex
  split_ifs with h16 h32 h48
  · rw [h0 (by omega), exec_rndq0 rfl h16]
  · rw [h1 (by omega), exec_rndq1 rfl (by omega) h32]
  · rw [h2 (by omega), exec_rndq2 rfl (by omega) h48]
  · rw [h3 (by omega), exec_rndq3 rfl (by omega)]

/-! ### The four quarters (R113 to R116) -/

/-- The writes of round `n` with schedule word `m`, from the tables. -/
theorem roundWrite_from_tables {s : State} {r : BitVec 6} {n m : Nat} {g : Fin 16} (f : Word) (hr : r.toNat = n) (hg : g.val = m) :
    roundWrite f g r s =
      let f' := add32 (add32 (add32 f s.a) (roundConstants[n]'(hr ▸ r.isLt))) (s.w[m]'(hg ▸ g.isLt))
      { s with a := s.d, b := add32 s.b (rotl32 f' (rotationAmounts[n]'(hr ▸ r.isLt))), c := s.b, d := s.c } := by
  subst hr hg
  rfl

/-- A round before round 63 that the sequencer enables. -/
theorem roundOf_before_last {s : State} {n m : Nat} {g : Fin 16} (f : Word) (hp : s.phase = .busy) (hu : s.ustep = .rnd)
    (hr : s.i.toNat = n) (hn : n < 63) (hg : g.val = m) :
    roundOf f g s.i s (afterRound s.i s.blk) =
      let f' := add32 (add32 (add32 f s.a) (roundConstants[n]'(by omega))) (s.w[m]'(hg ▸ g.isLt))
      let nb := add32 s.b (rotl32 f' (rotationAmounts[n]'(by omega)))
      .next { s with a := s.d, b := nb, c := s.b, d := s.c, i := BitVec.ofNat 6 (n + 1) } := by
  rw [roundOf_of_enabled _ hp hu rfl, afterRound_same_block (b := s.blk) (roundWrite f g s.i s) hr hn hp hu rfl,
    roundWrite_from_tables f hr hg]

theorem toNat_of_eq_ofNat {r : BitVec 6} {n : Nat} (h : r = BitVec.ofNat 6 n) (hn : n < 64) : r.toNat = n := by
  rw [h, BitVec.toNat_ofNat, Nat.mod_eq_of_lt hn]

/-- Settles O31: the row of the first quarter at its round; below 16 the formula of `index0` is `g = i`. -/
theorem rndq0Round : Obligations.Rndq0Round := by
  intro s n hhi hp hu hi
  have hr := toNat_of_eq_ofNat hi (by omega)
  have hg : (index0 s.i).val = n := (congrArg (· % 16) hr).trans (Nat.mod_eq_of_lt hhi)
  exact (exec_rndq0 hr hhi s).trans (roundOf_before_last _ hp hu hr (by omega) hg)

/-- Settles O32: the row of the second quarter at its round, `g` by the formula of `index1`. -/
theorem rndq1Round : Obligations.Rndq1Round := by
  intro s n hlo hhi hp hu hi
  have hr := toNat_of_eq_ofNat hi (by omega)
  have hg : (index1 s.i).val = (5 * n + 1) % 16 := congrArg (fun r => (5 * r + 1) % 16) hr
  exact (exec_rndq1 hr hlo hhi s).trans (roundOf_before_last _ hp hu hr (by omega) hg)

/-- Settles O33: the row of the third quarter at its round, `g` by the formula of `index2`. -/
theorem rndq2Round : Obligations.Rndq2Round := by
  intro s n hlo hhi hp hu hi
  have hr := toNat_of_eq_ofNat hi (by omega)
  have hg : (index2 s.i).val = (3 * n + 5) % 16 := congrArg (fun r => (3 * r + 5) % 16) hr
  exact (exec_rndq2 hr hlo hhi s).trans (roundOf_before_last _ hp hu hr (by omega) hg)

/-- Settles O34: the row of the fourth quarter, before round 63 and at round 63, where the sequencer leaves the rounds. -/
theorem rndq3Round : Obligations.Rndq3Round := by
  intro s n hlo hhi hp hu hi
  have hr := toNat_of_eq_ofNat hi hhi
  have hg : (index3 s.i).val = 7 * n % 16 := congrArg (fun r => 7 * r % 16) hr
  have hexec := exec_rndq3 hr hlo s
  constructor
  · exact fun hlt => hexec.trans (roundOf_before_last _ hp hu hr hlt hg)
  · refine fun hlast => ⟨_, hexec.trans (roundOf_of_enabled _ hp hu rfl), ?_⟩
    rw [afterRound_last (hr.trans hlast), seqToBlock_of_busy (s := roundWrite _ _ _ s) hp, roundWrite_from_tables _ hr hg]
    rfl

/-! ### FOLD (R120) -/

/-- FOLD answers the new accumulator and a new position; everything else stays. -/
theorem execFold_of_enabled {s : State} (hp : s.phase = .busy) (hu : s.ustep = .fold) :
    ∃ u n r k, execFold s = .next { s with h := (foldAccumulator s).h, ustep := u, blk := n, i := r, draws := k } ∧
      (s.blk + 1 < s.nblk → u = .loadw ∧ n = s.blk + 1) ∧ (s.nblk ≤ s.blk + 1 → u = .ser) := by
  rw [execFold, enabledAt_of_enabled _ hp hu]
  have hmove := seqToBlock_of_busy (s := foldAccumulator s) hp
  split
  · exact ⟨_, _, _, _, congrArg _ (hmove .loadw (s.blk + 1)), fun _ => ⟨rfl, rfl⟩, fun _ => by omega⟩
  · exact ⟨_, _, _, _, congrArg _ (hmove .ser _), fun _ => by omega, fun _ => rfl⟩

/-- Settles O35: the frame of FOLD, with the position after it by the block count. -/
theorem foldAddsWorkingVariables : Obligations.FoldAddsWorkingVariables := by
  intro s hp hu
  obtain ⟨u, n, r, k, hexec, hnext, hlast⟩ := execFold_of_enabled hp hu
  refine ⟨_, hexec, rfl, fun hlt => ?next, fun hge => ?last⟩
  case next =>
    obtain ⟨rfl, rfl⟩ := hnext hlt
    rfl
  case last =>
    obtain rfl := hlast hge
    rfl

end Sys2Proof.Machine
end

section
/-! PROOFS. A whole block (42_block_compressor.md R110, R121): LOADW, 64 rounds and FOLD in step with the block function. -/

namespace Sys2Proof.Machine

theorem stepN_one (s : State) : stepN 1 s = step s := by
  cases h : step s <;> simp [stepN, h]

/-- The working variables that a block starts with (R111). -/
def firstWork (h : Vector Word 4) : Work := ⟨h[0], h[1], h[2], h[3]⟩

/-- At round `n` of the block of `s`, with the working variables `x`. -/
def atRound (s : State) (x : Work) (n : Nat) : State :=
  { s with phase := .busy, ustep := .rnd, i := BitVec.ofNat 6 n, a := x.a, b := x.b, c := x.c, d := x.d }

theorem stepN_loadw {s : State} (hp : s.phase = .busy) (hu : s.ustep = .loadw) (hh : s.host = [])
    (hfits : capacityFits s.cap (64 * s.blk + 64) = true) :
    stepN 1 s = .next (atRound (loadBlock s) (firstWork s.h) 0) := by
  rw [stepN_one, step_of_busy_turn (nextEvent_no_move hh) hp, hu]
  exact execLoadw_of_fits hp hu hfits

/-- One step at round `n` is one round of the block function (R112). -/
theorem stepN_round {s : State} (hh : s.host = []) (x : Work) (n : Nat) :
    stepN 1 (atRound s x n) =
      .next (afterRound (BitVec.ofNat 6 n) s.blk (atRound s (Work.round s.w (BitVec.ofNat 6 n) x) n)) := by
  rw [stepN_one, step_of_busy_turn (nextEvent_no_move (show (atRound s x n).host = [] from hh)) rfl]
  exact (exec_roundOp _ _).trans (roundOf_of_enabled _ rfl rfl rfl)

/-- After `n` steps of the engine the working variables are those of `n` rounds. -/
theorem stepN_atRound {s : State} (hh : s.host = []) (x : Work) {n : Nat} (hn : n ≤ 63) :
    stepN n (atRound s x 0) = .next (atRound s (Work.rounds s.w n x) n) := by
  induction n with
  | zero => rfl
  | succ n ih =>
    have hr : (BitVec.ofNat 6 n).toNat = n := toNat_of_eq_ofNat rfl (by omega)
    rw [stepN_add (ih (by omega)), stepN_round hh,
      afterRound_same_block (b := s.blk) (atRound s _ n) hr (by omega) rfl rfl rfl]
    rfl

/-- The 64 rounds of a block, up to FOLD. -/
theorem stepN_rounds {s : State} (hh : s.host = []) (x : Work) :
    stepN 64 (atRound s x 0) = .next (seqToBlock .fold s.blk (atRound s (Work.rounds s.w 64 x) 63)) := by
  rw [stepN_add (m := 63) (n := 1) (stepN_atRound hh x (le_refl 63)), stepN_round hh, afterRound_last (by decide)]
  rfl

/-- At FOLD of the block that `s` is about to load. -/
def atFold (s : State) : State :=
  seqToBlock .fold s.blk (atRound (loadBlock s) (Work.rounds (loadBlock s).w 64 (firstWork s.h)) 63)

theorem stepN_atFold {s : State} (hp : s.phase = .busy) (hu : s.ustep = .loadw) (hh : s.host = [])
    (hfits : capacityFits s.cap (64 * s.blk + 64) = true) : stepN 65 s = .next (atFold s) :=
  (stepN_add (n := 64) (stepN_loadw hp hu hh hfits)).trans (stepN_rounds (s := loadBlock s) hh _)

/-- What FOLD adds up is the block function of the words loaded (R121). -/
theorem foldAccumulator_atFold (s : State) : (foldAccumulator (atFold s)).h = compress s.h (loadBlock s).w := rfl

/-- Settles O51: 65 steps lead to FOLD with the working variables of 64 rounds, and FOLD writes accumulator and position only. -/
theorem blockFunctionInSixtySixSteps : Obligations.BlockFunctionInSixtySixSteps := by
  intro s w hp hu hh hfits hw
  have hload : (loadBlock s).w = w :=
    Vector.ext fun j hj => (getElem_loadBlock_w s ⟨j, hj⟩).trans (hw ⟨j, hj⟩).symm
  obtain ⟨u, n, r, k, hfold, hnext, hlast⟩ := execFold_of_enabled (s := atFold s) rfl rfl
  have hrun : stepN 66 s = execFold (atFold s) := calc
    stepN 66 s = stepN 1 (atFold s) := stepN_add (n := 1) (stepN_atFold hp hu hh hfits)
    _ = step (atFold s) := stepN_one _
    _ = execFold (atFold s) := step_of_busy_turn (nextEvent_no_move (s := atFold s) hh) rfl
  refine ⟨_, hrun.trans hfold, ?accumulator, rfl, hnext, hlast, rfl, rfl, rfl, rfl, rfl, rfl, rfl, hh, rfl⟩
  case accumulator => rw [← hload]; exact foldAccumulator_atFold s

end Sys2Proof.Machine
end

section
/-! PROOFS. The serializer (43_serializer.md R130, R131): what SER writes, and that nothing else brings a call to DONE. -/

namespace Sys2Proof.Machine

/-! ### SER -/

theorem execSer_of_enabled {s : State} (hp : s.phase = .busy) (hu : s.ustep = .ser) :
    execSer s = .next { s with digest := serialize s.h, phase := .done } :=
  enabledAt_of_enabled _ hp hu

theorem execSer_next {s t : State} (h : execSer s = .next t) :
    s.phase = .busy ∧ s.ustep = .ser ∧ t = { s with digest := serialize s.h, phase := .done } := by
  obtain ⟨⟨hp, hu⟩, h⟩ := enabledAt_next h
  cases h
  exact ⟨hp, hu, rfl⟩

/-- Settles O36: digest byte `4k + m` is byte `m` of word `k`, and SER writes the digest and the phase only. -/
theorem serEmitsDigest : Obligations.SerEmitsDigest := by
  intro s hp hu
  refine ⟨_, execSer_of_enabled hp hu, fun k m hk hm => ?byte, rfl, rfl, rfl⟩
  case byte => exact (getElem_serialize s.h hk hm).trans (wordByte_eq_ofNat s.h[k] m)

/-! ### No other instruction ends in DONE -/

/-- A command other than START ends in DONE only if what it does when accepted does. -/
theorem command_ne_done {code : CodeWord} {s t : State} {r : Result} (h : command code s r = .next t)
    (hr : r = .next t → t.phase ≠ .done) : t.phase ≠ .done := by
  obtain ⟨hp, rfl⟩ | ⟨hp, rfl⟩ | ⟨_, _, h⟩ := command_next h
  · simp [holdWord_phase, hp]
  · simp [hp]
  · exact hr h

/-- PUTC and FINISH outside ABSORB wait, are ignored or fault (R137, R164, R169). -/
theorem callCommand_ne_done {code : CodeWord} {s t u : State} (h : command code s (inAbsorb s (.next u)) = .next t)
    (hp : s.phase ≠ .absorb) : t.phase ≠ .done := by
  refine command_ne_done h fun h => ?_
  obtain ⟨ha, _⟩ | ⟨_, rfl⟩ := inAbsorb_next h
  · exact absurd ha hp
  · exact Phase.noConfusion

theorem illegal_ne_done {code : CodeWord} {s t : State}
    (h : command code s (.next (raiseFault .illegalCmd s)) = .next t) : t.phase ≠ .done :=
  command_ne_done h fun h => by
    cases h
    exact Phase.noConfusion

theorem execStart_ne_done {s t : State} (h : execStart s = .next t) : t.phase ≠ .done := by
  by_cases hp : s.phase = .busy
  · simp only [execStart, hp] at h
    cases h
    simp [holdWord_phase, hp]
  · cases (execStart_accepts hp).symm.trans h
    exact Phase.noConfusion

theorem roundOf_ne_done {f : Word} {g : Fin 16} {r : BitVec 6} {s t : State} {next : State → State}
    (h : roundOf f g r s next = .next t) (hn : ∀ u, (next u).phase = .busy) : t.phase ≠ .done := by
  obtain ⟨_, _, _, rfl⟩ := roundOf_next h
  simp [hn]

/-- An instruction that ends in DONE is SER. ABSORB has no edge to DONE (R27), so PUTC and FINISH need a look outside ABSORB
only. -/
theorem eq_ser_of_exec_done {i : Instr} {s t : State} (h : exec i s = .next t) (hd : t.phase = .done) : i = .ser := by
  have hp : s.phase ≠ .absorb := fun ha => by
    have hedge := exec_phaseEdge h
    rw [ha, hd] at hedge
    exact absurd hedge (by decide)
  cases i with
  | start => exact absurd hd (execStart_ne_done h)
  | putcEnc1 | putcEnc2 | putcEnc3 | putcEnc4 | putcBad | finish => exact absurd hd (callCommand_ne_done h hp)
  | reservedOp0 | reservedStartArg | reservedFinishArg | reservedOp4to7 => exact absurd hd (illegal_ne_done h)
  | pad | loadw =>
    obtain ⟨_, h⟩ := enabledAt_next h
    obtain ⟨_, rfl⟩ := withinBuffer_next h
    exact Phase.noConfusion hd
  | rndq0 | rndq1 | rndq2 => exact absurd hd (roundOf_ne_done h fun _ => rfl)
  | rndq3 =>
    simp only [exec, execRndq3] at h
    refine absurd hd (roundOf_ne_done h fun u => ?_)
    split <;> rfl
  | fold =>
    obtain ⟨_, h⟩ := enabledAt_next h
    cases h
    split at hd <;> exact Phase.noConfusion hd
  | ser => rfl

/-- Settles O44: an instruction that ends in DONE is SER, and an answer to the host keeps the digest or is a reset. -/
theorem digestComesOnlyFromSer : Obligations.DigestComesOnlyFromSer := by
  intro s t h hd
  obtain ⟨i, u, ⟨⟨host, cmd, rfl⟩, _⟩, h⟩ | ⟨host, rfl⟩ | ⟨rest, _, rfl⟩ | ⟨j, rest, _, h⟩ | ⟨rest, _, rfl⟩ :=
    step_next_cases h
  · obtain rfl := eq_ser_of_exec_done h hd
    obtain ⟨hp, hu, rfl⟩ := execSer_next h
    exact .inr ⟨hp, hu, rfl⟩
  · exact .inl ⟨hd, rfl⟩
  · exact .inl ⟨hd, rfl⟩
  · obtain ⟨hp, rfl⟩ := readDigest_next h
    exact .inl ⟨hp, rfl⟩
  · exact Phase.noConfusion hd

end Sys2Proof.Machine
end

section
/-! PROOFS. Commands at the port (44_host_interface.md R137 to R140, R162, R169): which of them the phase lets through, and what
START, PUTC and FINISH answer when they are accepted. -/

namespace Sys2Proof.Machine

/-! ### A command that the phase holds back (R137, R169) -/

theorem command_of_busy {code : CodeWord} {s : State} (r : Result) (hp : s.phase = .busy) :
    command code s r = .next (holdWord code s) := by
  simp only [command, hp]

theorem command_of_fault {code : CodeWord} {s : State} (r : Result) (hp : s.phase = .fault) : command code s r = .next s := by
  simp only [command, hp]

theorem execStart_of_busy {s : State} (hp : s.phase = .busy) : execStart s = .next (holdWord (encode .start) s) := by
  simp only [execStart, hp]

theorem holdWord_of_free {s : State} (w : BitVec 24) (hc : s.cmd = none) : holdWord (.cmd w) s = { s with cmd := some w } := by
  simp only [holdWord, hc]

/-- R169: in FAULT every command but START is ignored. -/
theorem exec_of_fault {i : Instr} {s : State} (hi : i.commandRow.isSome = true) (hne : i ≠ .start) (hp : s.phase = .fault) :
    exec i s = .next s := by
  cases i with
  | start => exact absurd rfl hne
  | putcEnc1 | putcEnc2 | putcEnc3 | putcEnc4 | putcBad | finish => exact command_of_fault _ hp
  | reservedOp0 | reservedStartArg | reservedFinishArg | reservedOp4to7 => exact command_of_fault _ hp
  | pad | loadw | rndq0 | rndq1 | rndq2 | rndq3 | fold | ser => cases hi

/-- R137: in BUSY every command's word is held. -/
theorem exec_of_busy {i : Instr} {s : State} (hi : i.commandRow.isSome = true) (hp : s.phase = .busy) :
    ∃ w, encode i = .cmd w ∧ exec i s = .next (holdWord (.cmd w) s) := by
  cases i with
  | start => exact ⟨_, rfl, execStart_of_busy hp⟩
  | putcEnc1 | putcEnc2 | putcEnc3 | putcEnc4 | putcBad | finish => exact ⟨_, rfl, command_of_busy _ hp⟩
  | reservedOp0 | reservedStartArg | reservedFinishArg | reservedOp4to7 => exact ⟨_, rfl, command_of_busy _ hp⟩
  | pad | loadw | rndq0 | rndq1 | rndq2 | rndq3 | fold | ser => cases hi

/-- In ABSORB a command of the open call is accepted. -/
theorem callCommand_of_absorb {code : CodeWord} {s : State} (r : Result) (hp : s.phase = .absorb) :
    command code s (inAbsorb s r) = r := by
  rw [command_accepts _ (by simp [hp]) (by simp [hp]), inAbsorb, if_pos hp]

/-- R31: STATUS by its two registers. -/
theorem status_of_phase_fault {s : State} {p : Phase} {c : FaultCause} (hp : s.phase = p) (hf : s.fault = c) :
    s.status = BitVec.ofBool (p == .done) ++ BitVec.ofBool (p != .busy) ++ c.code ++ p.code := by
  rw [State.status, State.valid, State.ready, hp, hf]

/-! ### START (R138) -/

theorem decodeCommand_startWord : decodeCommand 0x200000#24 = .start := rfl

theorem startCall_of_not_done {s : State} (hp : s.phase ≠ .done) :
    startCall s = { s with h := initialAccumulator, len := 0, fault := .noFault, phase := .absorb } := by
  simp only [startCall, hp, if_false]

/-- START writes the registers of R138, and of the others at most the digest, which it makes unspecified. -/
theorem startCall_frame (s : State) :
    startCall s = { s with h := initialAccumulator, len := 0, fault := .noFault, phase := .absorb,
                           digest := (startCall s).digest, draws := (startCall s).draws } := by
  unfold startCall
  dsimp only
  split <;> rfl

theorem startCall_startCall (s : State) : startCall (startCall s) = startCall s :=
  startCall_of_not_done (by rw [startCall_phase]; decide)

theorem status_startCall (s : State) : (startCall s).status = 0x41#8 :=
  status_of_phase_fault (startCall_phase s) (startCall_fault s)

theorem readDigest_of_not_done {s : State} (j : BitVec 4) (hp : s.phase ≠ .done) :
    readDigest j s = .refused .digestNotValid := if_neg hp

/-- Settles O16: START's next state is `startCall`, whose fields are those of R138, and which START leaves as it is. -/
theorem startOpensCall : Obligations.StartOpensCall := by
  refine ⟨fun w => ⟨decodeCommand_eq_start, ?word⟩, fun _ _ => exec_of_fault, fun s hp => ?opens⟩
  case word =>
    rintro rfl
    exact decodeCommand_startWord
  case opens =>
    refine ⟨startCall s, execStart_accepts hp, rfl, rfl, rfl, rfl, status_startCall s, fun j => ?noDigest,
      startCall_frame s, ?again⟩
    case noDigest => exact readDigest_of_not_done j (by rw [startCall_phase]; decide)
    case again =>
      rw [exec, execStart_accepts (by rw [startCall_phase]; decide), startCall_startCall]

/-! ### PUTC (R139, R162) -/

/-- R77: the bytes of an operand by its form. -/
theorem utf8_of_inForm1 {cp : BitVec 21} (h : inForm 1 cp) : utf8 cp = utf8One cp := if_pos h

theorem utf8_of_inForm2 {cp : BitVec 21} (h : inForm 2 cp) : utf8 cp = utf8Two cp := by
  simp only [inForm] at h
  rw [utf8, if_neg (by omega), if_pos h.2]

theorem utf8_of_inForm3 {cp : BitVec 21} (h : inForm 3 cp) : utf8 cp = utf8Three cp := by
  simp only [inForm] at h
  rw [utf8, if_neg (by omega), if_neg (by omega), if_pos (by omega)]

theorem utf8_of_inForm4 {cp : BitVec 21} (h : inForm 4 cp) : utf8 cp = utf8Four cp := by
  simp only [inForm] at h
  rw [utf8, if_neg (by omega), if_neg (by omega), if_neg (by omega)]

/-- In ABSORB a PUTC of a form of `n` bytes appends the `n` bytes of its operand, or raises ALLOC. -/
theorem exec_putc_of_inForm {n : Nat} {cp : BitVec 21} {s : State} (h : inForm n cp) (hp : s.phase = .absorb) :
    exec (decodePutc cp) s = .next (appendBytes (utf8 cp) s) ∧ (utf8 cp).length = n := by
  match n with
  | 1 =>
    rw [decodePutc_of_inForm1 h, utf8_of_inForm1 h]
    exact ⟨callCommand_of_absorb _ hp, rfl⟩
  | 2 =>
    rw [decodePutc_of_inForm2 h, utf8_of_inForm2 h]
    exact ⟨callCommand_of_absorb _ hp, rfl⟩
  | 3 =>
    rw [decodePutc_of_inForm3 h, utf8_of_inForm3 h]
    exact ⟨callCommand_of_absorb _ hp, rfl⟩
  | 4 =>
    rw [decodePutc_of_inForm4 h, utf8_of_inForm4 h]
    exact ⟨callCommand_of_absorb _ hp, rfl⟩
  | 0 | _ + 5 => exact False.elim h

/-- R77: a scalar value has a form. -/
theorem inForm_of_isScalar {cp : BitVec 21} (h : isScalar cp = true) : ∃ n, inForm n cp := by
  obtain h1 | h2 | h3 | h4 | hn := form_cases cp
  · exact ⟨1, h1⟩
  · exact ⟨2, h2⟩
  · exact ⟨3, h3⟩
  · exact ⟨4, h4⟩
  · rw [(not_isScalar_iff cp).mpr hn] at h
    cases h

theorem appendBytes_of_room {bytes : List Byte} {s : State} (h : capacityFits s.cap (s.len + bytes.length + 9) = true) :
    appendBytes bytes s = { memWriteBytes s s.len bytes with len := s.len + bytes.length } := if_pos h

theorem appendBytes_of_overfull {bytes : List Byte} {s : State}
    (h : capacityFits s.cap (s.len + bytes.length + 9) = false) : appendBytes bytes s = raiseFault .alloc s :=
  if_neg (by rw [h]; decide)

/-- R161, R167: what fault entry leaves. -/
theorem raiseFault_entered (why : FaultCause) (s : State) : FaultEntered why s (raiseFault why s) where
  cause := rfl
  phase := rfl
  status := by
    rw [status_of_phase_fault (raiseFault_phase why s) (raiseFault_fault why s)]
    cases why <;> rfl
  frame := ⟨rfl, rfl, rfl, rfl⟩

/-- FINISH raises no fault but PROTOCOL. -/
theorem execFinish_fault {s t : State} (h : execFinish s = .next t) : t.fault = s.fault ∨ t.fault = .protocol := by
  obtain ⟨_, rfl⟩ | ⟨_, rfl⟩ | ⟨_, _, h⟩ := command_next h
  · obtain ⟨c, he, _⟩ := holdWord_eq (encode .finish) s
    rw [he]
    exact .inl rfl
  · exact .inl rfl
  · obtain ⟨_, h⟩ | ⟨_, rfl⟩ := inAbsorb_next h
    · cases h
      exact .inl rfl
    · exact .inr rfl

/-- Settles O21: PUTC's answer is `appendBytes`, which looks for room, and an unbounded buffer always has it. -/
theorem overfullPutcRaisesAlloc : Obligations.OverfullPutcRaisesAlloc := by
  refine ⟨fun n cp s hform hp hfull => ?overfull, fun n cp s hform hp hcap => ?unbounded, fun s t h halloc => ?finish⟩
  case overfull =>
    obtain ⟨hexec, rfl⟩ := exec_putc_of_inForm hform hp
    rw [hexec, appendBytes_of_overfull hfull]
    exact ⟨_, rfl, raiseFault_entered .alloc s⟩
  case unbounded =>
    obtain ⟨hexec, rfl⟩ := exec_putc_of_inForm hform hp
    rw [hexec, appendBytes_of_room (by rw [hcap]; rfl)]
    exact ⟨_, rfl, hp, rfl⟩
  case finish =>
    obtain hf | hf := execFinish_fault h
    · exact hf.symm.trans halloc
    · cases hf.symm.trans halloc

/-- Settles O15: marker and length are part of the padding, and a buffer is whole blocks. -/
theorem roomForMessageIsRoomForPadding : Obligations.RoomForMessageIsRoomForPadding := by
  intro cap l
  have hle : l + 9 ≤ paddedLength l := by rw [paddedLength]; omega
  exact Bool.eq_iff_iff.mpr ⟨capacityFits_paddedLength, fun h => capacityFits_mono cap h hle⟩

/-! ### FINISH (R140) -/

theorem execFinish_of_absorb {s : State} (hp : s.phase = .absorb) : execFinish s = .next (seqToStage .pad s) :=
  callCommand_of_absorb _ hp

/-- Settles O23: FINISH's next state is the sequencer's move to PAD. -/
theorem finishStartsSequencer : Obligations.FinishStartsSequencer := by
  intro s hp
  exact ⟨_, execFinish_of_absorb hp, rfl, rfl, status_of_phase_fault (seqToStage_phase .pad s), rfl⟩

end Sys2Proof.Machine
end

section
/-! PROOFS. The ports while the engine runs (44_host_interface.md R136, R137, R141 to R143, R185): the port reads, and the
micro-operations, which neither read nor write the command port and the host's moves. -/

namespace Sys2Proof.Machine

/-! ### Port reads (R141 to R143) -/

theorem step_readStatus {s : State} {rest : List HostMove} (hh : s.host = .readStatus :: rest) :
    step s = .next (readStatus { s with host := rest }) := step_of_answer (nextEvent_readStatus hh)

theorem step_readDigest {s : State} {j : BitVec 4} {rest : List HostMove} (hh : s.host = .readDigest j :: rest) :
    step s = readDigest j { s with host := rest } := step_of_answer (nextEvent_readDigest hh)

/-- Settles O39: the answer to each read is its own, and `reads` and the host's moves are all that it changes. -/
theorem portReadsChangeNothing : Obligations.PortReadsChangeNothing := by
  refine fun s rest => ⟨step_readStatus, fun j hh => ?digest⟩
  case digest =>
    rw [step_readDigest hh]
    exact ⟨fun hp => if_pos hp, fun hp => readDigest_of_not_done j hp⟩

/-! ### Micro-operations and the ports -/

/-- `s` with another word at its port and other moves of its host to come. -/
def State.atPorts (host : List HostMove) (cmd : Option (BitVec 24)) (s : State) : State :=
  { s with host := host, cmd := cmd }

/-- The sequencer's move after a round does not look at the ports. -/
theorem afterRound_atPorts (r : BitVec 6) (n : Nat) (host : List HostMove) (cmd : Option (BitVec 24)) (s : State) :
    afterRound r n (s.atPorts host cmd) = (afterRound r n s).atPorts host cmd := by
  unfold afterRound
  split <;> rfl

/-- A micro-operation does the same whatever waits at the port and whatever the host is about to do. -/
theorem exec_microOp_atPorts {u : MicroStep} {r : BitVec 6} {s t : State} (h : exec (microOp u r) s = .next t)
    (host : List HostMove) (cmd : Option (BitVec 24)) :
    exec (microOp u r) (s.atPorts host cmd) = .next (t.atPorts host cmd) := by
  cases u with
  | pad | loadw =>
    obtain ⟨⟨hp, hu⟩, h⟩ := enabledAt_next h
    obtain ⟨hfits, rfl⟩ := withinBuffer_next h
    exact (enabledAt_of_enabled (s := s.atPorts host cmd) _ hp hu).trans (withinBuffer_of_fits hfits)
  | rnd =>
    obtain ⟨hp, hu, hi, rfl⟩ := roundOf_next ((exec_roundOp r s).symm.trans h)
    rw [← afterRound_atPorts]
    exact (exec_roundOp r _).trans (roundOf_of_enabled (s := s.atPorts host cmd) _ hp hu hi)
  | fold =>
    obtain ⟨⟨hp, hu⟩, h⟩ := enabledAt_next h
    cases h
    rw [apply_ite (State.atPorts host cmd)]
    exact enabledAt_of_enabled (s := s.atPorts host cmd) _ hp hu
  | ser =>
    obtain ⟨hp, hu, rfl⟩ := execSer_next h
    exact execSer_of_enabled (s := s.atPorts host cmd) hp hu

/-- A micro-operation leaves the port and the host's moves as they are. -/
theorem exec_microOp_keeps_ports {u : MicroStep} {r : BitVec 6} {s t : State} (h : exec (microOp u r) s = .next t) :
    t.host = s.host ∧ t.cmd = s.cmd := by
  have hsame : t = t.atPorts s.host s.cmd :=
    Host.Outcome.next.inj (h.symm.trans (exec_microOp_atPorts h s.host s.cmd))
  rw [hsame]
  exact ⟨rfl, rfl⟩

/-- R137: a word that waits in BUSY goes on waiting, unless a reset drops it. -/
theorem step_keeps_waiting {s t : State} {w : BitVec 24} (hp : s.phase = .busy) (hc : s.cmd = some w)
    (h : step s = .next t) : t.cmd = some w ∨ ∃ rest, s.host = .reset :: rest := by
  obtain ⟨i, u, hruns, hexec⟩ | ⟨host, rfl⟩ | ⟨rest, _, rfl⟩ | ⟨j, rest, _, hread⟩ | ⟨rest, hh, _⟩ := step_next_cases h
  · obtain ⟨_, rfl, hcmd⟩ | ⟨_, _, _, ⟨hfree, _⟩ | ⟨hnot, _⟩⟩ := hruns.which
    · exact .inl ((exec_microOp_keeps_ports hexec).2.trans (hcmd.trans hc))
    · cases hc.symm.trans hfree
    · exact absurd hp hnot
  · exact .inl hc
  · exact .inl hc
  · rw [(readDigest_next hread).2]
    exact .inl hc
  · exact .inr ⟨rest, hh⟩

/-- Settles O26: a word is held in BUSY, kept by every step but a reset, and accepted afterwards; reads and reset are the host's
moves, which are answered in every phase. -/
theorem commandWaitsInBusy : Obligations.CommandWaitsInBusy := by
  refine ⟨fun i s hi hp hc => ?held, fun w s t => step_keeps_waiting, fun w s hp hc hh => ?accepted,
    fun s rest => ⟨step_readStatus, fun hh => ?reset⟩⟩
  case held =>
    obtain ⟨w, hw, hexec⟩ := exec_of_busy hi hp
    exact ⟨w, hw, hexec.trans (congrArg _ (holdWord_of_free w hc))⟩
  case accepted => exact step_of_run ((nextEvent_no_move hh).trans (engineEvent_waiting hp hc))
  case reset => exact ⟨_, step_of_answer (nextEvent_reset hh), rfl, rfl⟩

/-! ### A host that waits (R82) -/

theorem stepN_idle {s : State} (hp : s.phase ≠ .busy) (hc : s.cmd = none) (hh : s.host = []) (n : Nat) :
    stepN n s = .next s := by
  induction n with
  | zero => rfl
  | succ n ih => simp only [stepN, step_of_answer ((nextEvent_no_move hh).trans (engineEvent_idle hp hc)), ih]

/-- In BUSY a step of the engine alone is also its step while the host waits. -/
theorem step_waiting {s t : State} (hh : s.host = []) (hp : s.phase = .busy) (h : step s = .next t) (rest : List HostMove) :
    step (s.atPorts (.wait :: rest) s.cmd) = .next (t.atPorts (.wait :: rest) s.cmd) ∧ t.host = [] ∧ t.cmd = s.cmd := by
  have hexec : exec (microOp s.ustep s.i) s = .next t := (step_of_busy_turn (nextEvent_no_move hh) hp).symm.trans h
  obtain ⟨hhost, hcmd⟩ := exec_microOp_keeps_ports hexec
  refine ⟨?_, hhost.trans hh, hcmd⟩
  rw [step_of_busy_turn (nextEvent_wait_busy (s := s.atPorts _ _) rfl hp) hp]
  exact exec_microOp_atPorts hexec (.wait :: rest) s.cmd

/-- A run of the engine alone that ends in BUSY is also its run while the host waits. -/
theorem stepN_waiting {n : Nat} {s t : State} (hc : s.cmd = none) (hh : s.host = []) (h : stepN n s = .next t)
    (hp : t.phase = .busy) (rest : List HostMove) :
    stepN n (s.atPorts (.wait :: rest) none) = .next (t.atPorts (.wait :: rest) none) := by
  induction n generalizing s with
  | zero =>
    cases h
    rfl
  | succ n ih =>
    have hbusy : s.phase = .busy := by
      by_contra hidle
      cases (stepN_idle hidle hc hh (n + 1)).symm.trans h
      exact hidle hp
    simp only [stepN] at h ⊢
    split at h
    · rename_i u hu
      obtain ⟨hstep, hhost, hcmd⟩ := step_waiting hh hbusy hu rest
      rw [hc] at hstep hcmd
      simp only [hstep]
      exact ih hcmd hhost h
    · cases h
    · cases h

end Sys2Proof.Machine
end

section
/-! PROOFS. A whole call (44_host_interface.md R135, R144): the message as its characters come in, the padded message as its blocks
are folded in, and the digest at the end. -/

namespace Sys2Proof.Machine

/-! ### Runs and surroundings -/

theorem stepN_trans {m n : Nat} {s t u : State} (h : stepN m s = .next t) (h' : stepN n t = .next u) :
    stepN (m + n) s = .next u := (stepN_add h).trans h'

theorem SameSurroundings.trans {s t u : State} (h : SameSurroundings s t) (h' : SameSurroundings t u) :
    SameSurroundings s u := ⟨h'.cap.trans h.cap, h'.host.trans h.host, h'.reads.trans h.reads⟩

/-! ### The bytes at the start of the buffer -/

/-- The buffer of `s` begins with the bytes `m`. -/
def State.Holds (s : State) (m : List Byte) : Prop := ∀ x v, m[x]? = some v → memRead1 s x = v

theorem holds_nil (s : State) : s.Holds [] := fun _ _ h => by cases h

theorem State.Holds.congr {s t : State} {m : List Byte} (h : s.Holds m) (hread : ∀ x, memRead1 t x = memRead1 s x) :
    t.Holds m := fun x v hv => (hread x).trans (h x v hv)

/-- A write where the bytes end lengthens them. -/
theorem State.Holds.write {s : State} {m : List Byte} {n : Nat} (h : s.Holds m) (hn : m.length = n) (bytes : List Byte) :
    (memWriteBytes s n bytes).Holds (m ++ bytes) := by
  subst hn
  intro x v hv
  by_cases hold : x < m.length
  · rw [List.getElem?_append_left hold] at hv
    rw [memRead1_memWriteBytes_outside s _ x bytes (.inl hold)]
    exact h x v hv
  · obtain ⟨k, rfl⟩ := Nat.exists_eq_add_of_le (Nat.le_of_not_lt hold)
    rw [List.getElem?_append_right (Nat.le_add_right _ k), Nat.add_sub_cancel_left] at hv
    obtain ⟨hk, rfl⟩ := List.getElem?_eq_some_iff.mp hv
    exact memRead1_memWriteBytes_inside s m.length k bytes hk

theorem length_padded (m : List Byte) : (padded m).length = paddedLength m.length := by
  simp only [padded, paddedLength, List.length_append, List.length_replicate, List.length_singleton, length_wordBytes]

/-- The four writes of PAD are the four parts of the padding (R101 to R104, R107). -/
theorem padBuffer_holds_padded {s : State} {m : List Byte} (h : s.Holds m) (hlen : s.len = m.length) :
    (padBuffer s).Holds (padded m) := by
  rw [padBuffer_eq_writes, padded, hlen]
  refine (((h.write rfl _).write ?_ _).write ?_ _).write ?_ _ <;>
    simp only [List.length_append, List.length_replicate, List.length_singleton, length_wordBytes]

theorem State.Holds.getD {s : State} {m : List Byte} {x : Nat} (h : s.Holds m) (hx : x < m.length) :
    memRead1 s x = m.getD x 0#8 := by
  rw [List.getD_eq_getElem?_getD, List.getElem?_eq_getElem hx, Option.getD_some]
  exact h x _ (List.getElem?_eq_getElem hx)

/-- The words that LOADW reads from a buffer are those of the byte string it holds (R79). -/
theorem getElem_schedule_of_holds {s : State} {p : List Byte} {n : Nat} (h : s.Holds p) (hn : 64 * n + 64 ≤ p.length)
    (j : Fin 16) : (schedule p n)[j] = memRead4 s (64 * n + 4 * j) := by
  have hword : (schedule p n)[j] = scheduleWord p n j := by fin_cases j <;> rfl
  rw [hword, scheduleWord, memRead4]
  simp only [h.getD (show 64 * n + 4 * j.val < p.length by omega), h.getD (show 64 * n + 4 * j.val + 1 < p.length by omega),
    h.getD (show 64 * n + 4 * j.val + 2 < p.length by omega), h.getD (show 64 * n + 4 * j.val + 3 < p.length by omega)]

/-! ### The message comes in (R138 to R140) -/

/-- A call is open that has received the bytes `m`, and the port is free. -/
structure Received (m : List Byte) (s : State) : Prop where
  phase : s.phase = .absorb
  fault : s.fault = .noFault
  initial : s.h = initialAccumulator
  len : s.len = m.length
  bytes : s.Holds m
  port : s.cmd = none

theorem Received.atPorts {m : List Byte} {s : State} (hs : Received m s) (host : List HostMove) :
    Received m (s.atPorts host none) := ⟨hs.phase, hs.fault, hs.initial, hs.len, hs.bytes, rfl⟩

/-- A word issued at a free port is executed, with the move taken. -/
theorem step_issue {s t : State} {w : BitVec 24} {i : Instr} {rest : List HostMove} (hh : s.host = .issue w :: rest)
    (hc : s.cmd = none) (hw : decodeCommand w = i) (h : exec i (s.atPorts rest none) = .next t) :
    step s = .next t ∧ SameSurroundings (s.atPorts rest none) t := by
  have htaken : { s with host := rest } = s.atPorts rest none := by rw [State.atPorts, ← hc]
  rw [step_of_run (nextEvent_issue_free hh hc), hw, htaken]
  exact ⟨h, exec_surroundings h⟩

theorem exec_start_received {s : State} (hp : s.phase ≠ .busy) (hc : s.cmd = none) :
    ∃ t, exec .start s = .next t ∧ Received [] t :=
  ⟨startCall s, execStart_accepts hp, rfl, rfl, rfl, rfl, holds_nil _, (startCall_cmd s).trans hc⟩

theorem exec_putc_received {s : State} {m : List Byte} {cp : BitVec 21} (hs : Received m s) (hcp : isScalar cp = true)
    (hroom : capacityFits s.cap ((m ++ utf8 cp).length + 9) = true) :
    ∃ t, exec (decodePutc cp) s = .next t ∧ Received (m ++ utf8 cp) t := by
  obtain ⟨n, hform⟩ := inForm_of_isScalar hcp
  rw [List.length_append, ← hs.len] at hroom
  rw [(exec_putc_of_inForm hform hs.phase).1, appendBytes_of_room hroom]
  refine ⟨_, rfl, hs.phase, hs.fault, hs.initial, ?len, ?bytes, hs.port⟩
  case len => rw [List.length_append, ← hs.len]
  case bytes => exact hs.bytes.write hs.len.symm (utf8 cp)

/-- One step for each character of the string (R144). -/
theorem stepN_putcs {s : State} {m : List Byte} {cps : List (BitVec 21)} {rest : List HostMove} (hs : Received m s)
    (hcps : ∀ cp ∈ cps, isScalar cp = true) (hroom : capacityFits s.cap ((m ++ message cps).length + 9) = true)
    (hh : s.host = cps.map (fun cp => HostMove.issue (commandWord 2#3 cp)) ++ rest) :
    ∃ t, stepN cps.length s = .next t ∧ Received (m ++ message cps) t ∧ SameSurroundings (s.atPorts rest none) t := by
  induction cps generalizing s m with
  | nil =>
    rw [message_nil, List.append_nil]
    exact ⟨s, rfl, hs, rfl, hh, rfl⟩
  | cons cp cps ih =>
    rw [message_cons, ← List.append_assoc] at hroom ⊢
    obtain ⟨hcp, hcps⟩ := List.forall_mem_cons.mp hcps
    have hfits : capacityFits s.cap ((m ++ utf8 cp).length + 9) = true :=
      capacityFits_mono s.cap hroom (by simp only [List.length_append]; omega)
    obtain ⟨u, hexec, hu⟩ := exec_putc_received (hs.atPorts _) hcp hfits
    obtain ⟨hstep, hcap, hhost, hreads⟩ := step_issue hh hs.port (decodeCommand_putcWord cp) hexec
    obtain ⟨t, hrun, ht, hsame⟩ := ih hu hcps (by rw [hcap]; exact hroom) hhost
    refine ⟨t, ?run, ht, hsame.cap.trans hcap, hsame.host, hsame.reads.trans hreads⟩
    case run =>
      rw [List.length_cons, Nat.add_comm]
      exact stepN_trans ((stepN_one s).trans hstep) hrun

/-! ### The sequencer runs (R107, R110, R121, R130) -/

/-- The blocks of a padded message of `l` bytes (R105). -/
def blockCount (l : Nat) : Nat := (l + 8) / 64 + 1

theorem length_padded_eq_blocks (m : List Byte) : (padded m).length = 64 * blockCount m.length :=
  (length_padded m).trans (paddedLength_eq_blocks m.length)

/-- The sequencer has folded in the first `n` blocks of the padded message `p`. -/
structure Compressed (p : List Byte) (n : Nat) (s : State) : Prop where
  phase : s.phase = .busy
  fault : s.fault = .noFault
  room : capacityFits s.cap p.length = true
  bytes : s.Holds p
  blocks : p.length = 64 * s.nblk
  accumulator : s.h = accumulatorAfter p n
  next : n < s.nblk → s.ustep = .loadw ∧ s.blk = n
  last : s.nblk ≤ n → s.ustep = .ser

/-- PAD makes the message received the padded message, no block of which is folded in yet. -/
theorem execPad_compressed {s : State} {m : List Byte} (hs : Received m s)
    (hroom : capacityFits s.cap (m.length + 9) = true) :
    ∃ t, execPad (seqToStage .pad s) = .next t ∧ Compressed (padded m) 0 t := by
  obtain ⟨t, hexec, hread, hframe⟩ := execPad_of_room (s := seqToStage .pad s) rfl rfl (hs.len ▸ hroom)
  have hblocks : (padded m).length = 64 * t.nblk := by
    rw [congrArg State.nblk hframe, seqToStage_len, hs.len, paddedLength_div_eq, length_padded_eq_blocks, blockCount]
  refine ⟨t, hexec, congrArg State.phase hframe, (congrArg State.fault hframe).trans hs.fault, ?room,
    (padBuffer_holds_padded (hs.bytes.congr fun _ => rfl) hs.len).congr hread, hblocks,
    (congrArg State.h hframe).trans hs.initial, fun _ => ⟨congrArg State.ustep hframe, congrArg State.blk hframe⟩,
    fun hnone => ?last⟩
  case room =>
    rw [congrArg State.cap hframe, length_padded]
    exact capacityFits_paddedLength hroom
  case last =>
    rw [length_padded_eq_blocks, blockCount] at hblocks
    omega

/-- A block is folded in in 66 steps. -/
theorem stepN_block_compressed {p : List Byte} {n : Nat} {s : State} (hs : Compressed p n s) (hn : n < s.nblk)
    (hh : s.host = []) : ∃ t, stepN 66 s = .next t ∧ Compressed p (n + 1) t ∧ SameSurroundings s t := by
  obtain ⟨hu, rfl⟩ := hs.next hn
  have hblock : 64 * s.blk + 64 ≤ p.length := by rw [hs.blocks]; omega
  obtain ⟨t, hrun, hacc, hphase, hnext, hlast, hpb, hdraw, _, hnblk, hcap, hfault, _, hhost, hreads⟩ :=
    blockFunctionInSixtySixSteps s (schedule p s.blk) hs.phase hu hh (capacityFits_mono s.cap hs.room hblock)
      (getElem_schedule_of_holds hs.bytes hblock)
  refine ⟨t, hrun, ⟨hphase, hfault.trans hs.fault, hcap ▸ hs.room, hs.bytes.congr (memRead1_congr hpb hdraw),
    hnblk ▸ hs.blocks, ?accumulator, hnblk ▸ hnext, hnblk ▸ hlast⟩, hcap, hhost.trans hh.symm, hreads⟩
  case accumulator => rw [hacc, hs.accumulator, accumulatorAfter]

/-- R121: block by block. -/
theorem stepN_compressed {p : List Byte} {s : State} (hs : Compressed p 0 s) (hh : s.host = []) {n : Nat}
    (hn : n ≤ s.nblk) : ∃ t, stepN (66 * n) s = .next t ∧ Compressed p n t ∧ SameSurroundings s t := by
  induction n with
  | zero => exact ⟨s, rfl, hs, rfl, rfl, rfl⟩
  | succ n ih =>
    obtain ⟨u, hrun, hu, hsame⟩ := ih (by omega)
    have hmore : n < u.nblk := by
      have hcount := hs.blocks.symm.trans hu.blocks
      omega
    obtain ⟨t, hblock, ht, hsame'⟩ := stepN_block_compressed hu hmore (hsame.host.trans hh)
    exact ⟨t, stepN_trans hrun hblock, ht, hsame.trans hsame'⟩

/-- From PAD to SER, the engine alone. -/
theorem stepN_sequencer {s : State} {m : List Byte} (hs : Received m s) (hh : s.host = [])
    (hroom : capacityFits s.cap (m.length + 9) = true) :
    ∃ t, stepN (1 + 66 * blockCount m.length) (seqToStage .pad s) = .next t ∧
      Compressed (padded m) (blockCount m.length) t ∧ SameSurroundings s t := by
  obtain ⟨u, hpad, hu⟩ := execPad_compressed hs hroom
  obtain ⟨hcap, hhost, hreads⟩ := exec_surroundings (i := .pad) hpad
  have hcount := hu.blocks
  rw [length_padded_eq_blocks] at hcount
  obtain ⟨t, hrun, ht, hsame⟩ := stepN_compressed hu (hhost.trans hh) (n := blockCount m.length) (by omega)
  refine ⟨t, stepN_trans ?pad hrun, ht, hsame.cap.trans hcap, hsame.host.trans hhost, hsame.reads.trans hreads⟩
  case pad => rw [stepN_one, step_of_busy_turn (nextEvent_no_move (s := seqToStage .pad s) hh) rfl]; exact hpad

/-- R130: when the last block is folded in, SER ends the call, while the host waits. -/
theorem step_ser_waiting {p : List Byte} {n : Nat} {s : State} (hs : Compressed p n s) (hn : s.nblk ≤ n)
    (rest : List HostMove) :
    step (s.atPorts (.wait :: rest) none) =
      .next { s.atPorts (.wait :: rest) none with digest := serialize (accumulatorAfter p n), phase := .done } := by
  rw [step_of_busy_turn (nextEvent_wait_busy (s := s.atPorts _ _) rfl hs.phase) hs.phase, ← hs.accumulator]
  have hser : (s.atPorts (.wait :: rest) none).ustep = .ser := hs.last hn
  rw [hser]
  exact execSer_of_enabled hs.phase hser

/-- FINISH, and then `66 * nblk + 2` micro-operations while the host waits (R144). -/
theorem stepN_finish {s : State} {m : List Byte} {rest : List HostMove} (hs : Received m s)
    (hroom : capacityFits s.cap (m.length + 9) = true) (hh : s.host = .issue 0x600000#24 :: .wait :: rest) :
    ∃ t, stepN (1 + (1 + 66 * blockCount m.length + 1)) s = .next t ∧ t.phase = .done ∧ t.fault = .noFault ∧
      t.digest = serialize (accumulatorAfter (padded m) (blockCount m.length)) ∧
      SameSurroundings (s.atPorts (.wait :: rest) none) t := by
  obtain ⟨hfinish, _⟩ := step_issue hh hs.port (show decodeCommand 0x600000#24 = .finish from rfl)
    (execFinish_of_absorb (hs.atPorts _).phase)
  obtain ⟨u, hrun, hu, hcap, _, hreads⟩ := stepN_sequencer (hs.atPorts []) rfl hroom
  have hcount := hu.blocks
  rw [length_padded_eq_blocks] at hcount
  have hwait := stepN_waiting rfl rfl hrun hu.phase rest
  have hser := step_ser_waiting hu (by omega) rest
  exact ⟨_, stepN_trans ((stepN_one s).trans hfinish) (stepN_trans hwait ((stepN_one _).trans hser)), rfl, hu.fault,
    rfl, hcap, rfl, hreads⟩

/-! ### START to DONE -/

theorem digestOf_eq (cps : List (BitVec 21)) :
    digestOf cps = serialize (accumulatorAfter (padded (message cps)) (blockCount (message cps).length)) := by
  rw [digestOf, length_padded_eq_blocks, Nat.mul_div_cancel_left _ (by decide)]

/-- Settles O53: START opens an empty message, the PUTCs append the string's bytes, FINISH and the sequencer give the digest. -/
theorem wholeCallComputesDigest : Obligations.WholeCallComputesDigest := by
  intro s cps rest hp hc hcps hroom hh
  obtain ⟨u, hexec, hu⟩ := exec_start_received (s := s.atPorts _ none) hp rfl
  obtain ⟨hstart, hstarted⟩ := step_issue hh hc decodeCommand_startWord hexec
  obtain ⟨v, hputcs, hv, hput⟩ := stepN_putcs hu hcps (hstarted.cap ▸ hroom) hstarted.host
  obtain ⟨t, hfinish, hphase, hfault, hdigest, hfinished⟩ := stepN_finish hv
    (by rw [hput.cap]; exact hstarted.cap ▸ hroom) hput.host
  refine ⟨t, ?run, hphase, hfault, hdigest.trans (digestOf_eq cps).symm, hfinished.host,
    hfinished.reads.trans (hput.reads.trans hstarted.reads), hfinished.cap.trans (hput.cap.trans hstarted.cap)⟩
  case run =>
    have hsteps : cps.length + 2 + (66 * (((message cps).length + 8) / 64 + 1) + 2) =
        1 + (cps.length + (1 + (1 + 66 * blockCount (message cps).length + 1))) := by rw [blockCount]; omega
    rw [hsteps]
    exact stepN_trans ((stepN_one s).trans hstart) (stepN_trans hputcs hfinish)

end Sys2Proof.Machine
end

section
/-! PROOFS. Fault entry (60_exceptions.md R161 to R167): which fault a command word raises in a phase that executes it. -/

namespace Sys2Proof

/-! ### The fields of a command word as numbers (R70) -/

theorem toNat_argField (w : BitVec 24) : (argField w).toNat = w.toNat % 2 ^ 21 := by
  rw [argField, BitVec.extractLsb'_toNat, Nat.shiftRight_zero]

theorem opField_eq_iff {w : BitVec 24} {op : BitVec 3} : opField w = op ↔ w.toNat / 2 ^ 21 = op.toNat := by
  rw [← BitVec.toNat_inj, toNat_opField]

theorem argField_eq_zero_iff {w : BitVec 24} : argField w = 0#21 ↔ w.toNat % 2 ^ 21 = 0 := by
  rw [← BitVec.toNat_inj, toNat_argField]
  rfl

end Sys2Proof

namespace Sys2Proof.Machine

theorem acceptingPhase_iff {p : Phase} : acceptingPhase p ↔ p ≠ .busy ∧ p ≠ .fault := by
  cases p <;> simp [acceptingPhase]

theorem command_of_accepting {code : CodeWord} {s : State} (r : Result) (ha : acceptingPhase s.phase) :
    command code s r = r := by
  obtain ⟨hb, hf⟩ := acceptingPhase_iff.mp ha
  exact command_accepts r hb hf

/-- An answer that is fault entry, as the statements speak of it. -/
theorem entered_of_raiseFault {r : Result} {why : FaultCause} {s : State} (h : r = .next (raiseFault why s)) :
    ∃ t, r = .next t ∧ FaultEntered why s t := ⟨_, h, raiseFault_entered why s⟩

/-! ### ILLEGAL_CMD (R165) -/

/-- R73: the words of the reserved rows. -/
def illegalWord (w : BitVec 24) : Prop :=
  w.toNat / 2 ^ 21 = 0 ∨ 4 ≤ w.toNat / 2 ^ 21 ∨ (w.toNat / 2 ^ 21 = 1 ∨ w.toNat / 2 ^ 21 = 3) ∧ w.toNat % 2 ^ 21 ≠ 0

theorem argField_ne_zero_of_illegalWord {w : BitVec 24} (hw : illegalWord w) (hop : opField w = 1#3 ∨ opField w = 3#3) :
    argField w ≠ 0#21 := by
  simp only [opField_eq_iff, BitVec.toNat_ofNat] at hop
  rw [ne_eq, argField_eq_zero_iff]
  unfold illegalWord at hw
  omega

/-- A reserved word decodes to a reserved row, and each of the four rows faults. -/
theorem exec_of_illegalWord {w : BitVec 24} {s : State} (hw : illegalWord w) (ha : acceptingPhase s.phase) :
    exec (decodeCommand w) s = .next (raiseFault .illegalCmd s) := by
  obtain h | h | h | h | h := opField_cases w
  · rw [decodeCommand_of_op0 h]
    exact command_of_accepting _ ha
  · rw [decodeCommand_of_op1 h, if_neg (argField_ne_zero_of_illegalWord hw (.inl h))]
    exact command_of_accepting _ ha
  · rw [opField_eq_iff, BitVec.toNat_ofNat] at h
    unfold illegalWord at hw
    omega
  · rw [decodeCommand_of_op3 h, if_neg (argField_ne_zero_of_illegalWord hw (.inr h))]
    exact command_of_accepting _ ha
  · rw [decodeCommand_of_op4to7 h]
    exact command_of_accepting _ ha

/-- Settles O25: a reserved row's answer is the fault itself, and a reserved word decodes to such a row. -/
theorem reservedWordRaisesIllegalCmd : Obligations.ReservedWordRaisesIllegalCmd := by
  intro s ha
  have illegal {code : CodeWord} : ∃ t, command code s (.next (raiseFault .illegalCmd s)) = .next t ∧
      FaultEntered .illegalCmd s t := entered_of_raiseFault (command_of_accepting _ ha)
  exact ⟨fun _ => illegal, fun _ => illegal, fun _ => illegal, fun _ => illegal,
    fun w hw => entered_of_raiseFault (exec_of_illegalWord hw ha)⟩

/-! ### PROTOCOL (R164) -/

/-- PUTC and FINISH fault in a phase that executes commands and is not ABSORB. -/
theorem callCommand_of_wrongPhase {code : CodeWord} {s : State} (r : Result) (ha : acceptingPhase s.phase)
    (hp : s.phase ≠ .absorb) : command code s (inAbsorb s r) = .next (raiseFault .protocol s) := by
  rw [command_of_accepting _ ha, inAbsorb, if_neg hp]

theorem exec_putc_of_wrongPhase {s : State} (cp : BitVec 21) (ha : acceptingPhase s.phase) (hp : s.phase ≠ .absorb) :
    exec (decodePutc cp) s = .next (raiseFault .protocol s) := by
  unfold decodePutc
  split_ifs <;> exact callCommand_of_wrongPhase _ ha hp

theorem execFinish_of_wrongPhase {s : State} (ha : acceptingPhase s.phase) (hp : s.phase ≠ .absorb) :
    execFinish s = .next (raiseFault .protocol s) := callCommand_of_wrongPhase _ ha hp

/-- Settles O24: every PUTC row and FINISH ask for ABSORB before anything else. -/
theorem wrongPhaseRaisesProtocol : Obligations.WrongPhaseRaisesProtocol := by
  intro s hs
  have ha : acceptingPhase s.phase := hs.imp_right .inr
  have hp : s.phase ≠ .absorb := by rcases hs with h | h <;> simp [h]
  exact ⟨fun cp => entered_of_raiseFault (exec_putc_of_wrongPhase cp ha hp),
    entered_of_raiseFault (execFinish_of_wrongPhase ha hp)⟩

/-! ### BAD_SCALAR (R163) -/

theorem execPutcBad_of_absorb (cp : BitVec 21) {s : State} (hp : s.phase = .absorb) :
    execPutcBad cp s = .next (raiseFault .badScalar s) := callCommand_of_absorb _ hp

theorem notScalar_iff_decodePutc (cp : BitVec 21) : notScalar cp ↔ decodePutc cp = .putcBad cp := by
  refine ⟨decodePutc_of_notScalar, fun h => ?_⟩
  have hwf := (wellFormed_encode_decodePutc cp).1
  rw [h] at hwf
  exact (wellFormed_putcBad cp).mp hwf

/-- Settles O22: the row faults without a look at the buffer, and its constraint is that of the decoder. -/
theorem putcOfNonScalarRaisesBadScalar : Obligations.PutcOfNonScalarRaisesBadScalar :=
  ⟨fun cp _ _ hp => entered_of_raiseFault (execPutcBad_of_absorb cp hp), notScalar_iff_decodePutc⟩

/-! ### The order of the four causes (R166) -/

/-- R77: the number of bytes of a scalar value. -/
def formOf (cp : Nat) : Nat := if cp ≤ 0x7F then 1 else if cp ≤ 0x7FF then 2 else if cp ≤ 0xFFFF then 3 else 4

theorem inForm_formOf {cp : BitVec 21} (h : ¬ notScalar cp) : inForm (formOf cp.toNat) cp := by
  unfold notScalar at h
  unfold formOf
  split_ifs <;> simp only [inForm] <;> omega

/-- A word that is neither reserved nor START is a PUTC or FINISH, which only ABSORB takes. -/
theorem exec_of_wrongPhase {w : BitVec 24} {s : State} (hw : ¬ illegalWord w) (hstart : w.toNat / 2 ^ 21 ≠ 1)
    (ha : acceptingPhase s.phase) (hp : s.phase ≠ .absorb) :
    exec (decodeCommand w) s = .next (raiseFault .protocol s) := by
  unfold illegalWord at hw
  obtain h | h : w.toNat / 2 ^ 21 = 2 ∨ w.toNat / 2 ^ 21 = 3 := by omega
  · rw [decodeCommand_of_op2 (opField_eq_iff.mpr h)]
    exact exec_putc_of_wrongPhase _ ha hp
  · have harg : argField w = 0#21 := argField_eq_zero_iff.mpr (by omega)
    rw [decodeCommand_of_op3 (opField_eq_iff.mpr h), if_pos harg]
    exact execFinish_of_wrongPhase ha hp

/-- Settles O27: the decoder sees a reserved word first, then the phase is asked, then the operand's row, then the buffer. -/
theorem faultPriority : Obligations.FaultPriority := by
  intro w s ha
  have putc (hop : w.toNat / 2 ^ 21 = 2) : decodeCommand w = decodePutc (argField w) :=
    decodeCommand_of_op2 (opField_eq_iff.mpr hop)
  refine ⟨fun hw => entered_of_raiseFault (exec_of_illegalWord hw ha),
    fun hw hstart hp => entered_of_raiseFault (exec_of_wrongPhase hw hstart ha hp), ?_⟩
  rw [← toNat_argField]
  refine ⟨fun hop hp hbad => ?badScalar, fun hop hp hscalar hfull => ?alloc, fun hop hp hscalar hroom => ?stays⟩
  case badScalar =>
    rw [putc hop, decodePutc_of_notScalar hbad]
    exact entered_of_raiseFault (execPutcBad_of_absorb _ hp)
  case alloc =>
    obtain ⟨overfull, _, _⟩ := overfullPutcRaisesAlloc
    rw [putc hop]
    exact overfull _ _ s (inForm_formOf hscalar) hp hfull
  case stays =>
    obtain ⟨hexec, hlen⟩ := exec_putc_of_inForm (inForm_formOf hscalar) hp
    rw [putc hop, hexec, appendBytes_of_room (hlen ▸ hroom)]
    exact ⟨_, rfl, hp, rfl⟩

end Sys2Proof.Machine
end

section
/-! PROOFS. Leaving FAULT (60_exceptions.md R169). -/

namespace Sys2Proof.Machine

/-- Settles O28: a command other than START is ignored, START's next state is `startCall`, and reset writes both registers. -/
theorem faultIgnoresAllButStart : Obligations.FaultIgnoresAllButStart :=
  ⟨fun _ _ => exec_of_fault, fun s hp => ⟨startCall s, execStart_accepts (by simp [hp]), rfl, rfl, rfl, rfl⟩,
    fun _ => ⟨rfl, rfl⟩⟩

theorem commandRow_decodeCommand (w : BitVec 24) : (decodeCommand w).commandRow.isSome = true := by
  obtain ⟨n, _, hrow, _⟩ := covers_commandRow w
  rw [hrow]
  rfl

/-- In FAULT a command word is START and opens a call, or is ignored. -/
theorem exec_decodeCommand_of_fault {w : BitVec 24} {s t : State} (hp : s.phase = .fault)
    (h : exec (decodeCommand w) s = .next t) : (w = 0x200000#24 ∧ t = startCall s) ∨ t = s := by
  by_cases hw : decodeCommand w = .start
  · rw [hw] at h
    cases (execStart_accepts (by simp [hp])).symm.trans h
    exact .inl ⟨decodeCommand_eq_start hw, rfl⟩
  · cases (exec_of_fault (commandRow_decodeCommand w) hw hp).symm.trans h
    exact .inr rfl

/-- Settles O43: outside BUSY an instruction that runs is a word from the port; of the host's own moves only reset writes the
phase. -/
theorem onlyStartOrResetLeavesFault : Obligations.OnlyStartOrResetLeavesFault := by
  intro s t hp h
  obtain ⟨i, u, ⟨⟨host, cmd, rfl⟩, hwhich⟩, hexec⟩ | ⟨host, rfl⟩ | ⟨rest, _, rfl⟩ | ⟨j, rest, _, hread⟩ | ⟨rest, hh, rfl⟩ :=
    step_next_cases h
  · obtain ⟨hbusy, _⟩ | ⟨w, rfl, _, hport⟩ := hwhich
    · cases hp.symm.trans hbusy
    · obtain ⟨rfl, rfl⟩ | rfl := exec_decodeCommand_of_fault (s := { s with host := host, cmd := cmd }) hp hexec
      · exact .inr (.inl ⟨rfl, rfl, hport.imp (fun ⟨hfree, hissue⟩ => ⟨hfree, _, hissue⟩) And.right⟩)
      · exact .inl ⟨hp, rfl⟩
  · exact .inl ⟨hp, rfl⟩
  · exact .inl ⟨hp, rfl⟩
  · cases hp.symm.trans (readDigest_next hread).1
  · exact .inr (.inr ⟨rfl, rfl, rest, hh⟩)

end Sys2Proof.Machine
end

section
/-! PROOFS. Progress (60_exceptions.md R160): every command has a next state, and so has every micro-operation that the sequencer
names in a state of the invariant. -/

namespace Sys2Proof.Machine

theorem command_progress {code : CodeWord} {s : State} {r : Result} (hr : ∃ t, r = .next t) :
    ∃ t, command code s r = .next t := by
  by_cases hb : s.phase = .busy
  · exact ⟨_, command_of_busy r hb⟩
  by_cases hf : s.phase = .fault
  · exact ⟨_, command_of_fault r hf⟩
  rwa [command_accepts r hb hf]

theorem callCommand_progress {code : CodeWord} {s : State} (u : State) :
    ∃ t, command code s (inAbsorb s (.next u)) = .next t := by
  refine command_progress ?_
  unfold inAbsorb
  split <;> exact ⟨_, rfl⟩

/-- A command is executed, ignored or held, and its own faults are next states. -/
theorem exec_command_progress {i : Instr} (hi : i.commandRow.isSome = true) (s : State) : ∃ t, exec i s = .next t := by
  cases i with
  | start =>
    by_cases hp : s.phase = .busy
    · exact ⟨_, execStart_of_busy hp⟩
    · exact ⟨_, execStart_accepts hp⟩
  | putcEnc1 | putcEnc2 | putcEnc3 | putcEnc4 | putcBad | finish => exact callCommand_progress _
  | reservedOp0 | reservedStartArg | reservedFinishArg | reservedOp4to7 => exact command_progress ⟨_, rfl⟩
  | pad | loadw | rndq0 | rndq1 | rndq2 | rndq3 | fold | ser => cases hi

/-- The sequencer never sticks: the micro-operation it names is enabled, and the invariant gives PAD and LOADW their room. -/
theorem exec_microOp_progress {s : State} (hs : s.Inv) (hp : s.phase = .busy) :
    ∃ t, exec (microOp s.ustep s.i) s = .next t := by
  cases hu : s.ustep with
  | pad =>
    obtain ⟨t, hexec, _⟩ := execPad_of_room hp hu (hs.padding hp hu).room
    exact ⟨t, hexec⟩
  | loadw => exact ⟨_, execLoadw_of_fits hp hu (hs.blockFits hp hu)⟩
  | rnd => exact ⟨_, (exec_roundOp s.i s).trans (roundOf_of_enabled _ hp hu rfl)⟩
  | fold =>
    obtain ⟨u, n, r, k, hexec, _⟩ := execFold_of_enabled hp hu
    exact ⟨_, hexec⟩
  | ser => exact ⟨_, execSer_of_enabled hp hu⟩

/-- Settles O48: an instruction that runs has a next state, and of the host's own moves only the DIGEST read may be refused. -/
theorem noStepFaults : Obligations.NoStepFaults := by
  intro s hs
  obtain ⟨i, u, he, ⟨host, cmd, rfl⟩, hwhich⟩ | ⟨host, he⟩ | ⟨rest, _, he⟩ | ⟨j, rest, hh, _⟩ | ⟨rest, _, he⟩ :=
    nextEvent_cases s
  · left
    rw [step_of_run he]
    obtain ⟨hp, rfl, _⟩ | ⟨w, rfl, _⟩ := hwhich
    · exact exec_microOp_progress (hs.withPorts cmd host s.reads) hp
    · exact exec_command_progress (commandRow_decodeCommand w) _
  · exact .inl ⟨_, step_of_answer he⟩
  · exact .inl ⟨_, step_of_answer he⟩
  · rw [step_readDigest hh]
    by_cases hp : s.phase = .done
    · exact .inl ⟨_, if_pos hp⟩
    · exact .inr ⟨readDigest_of_not_done j hp, hp, j, rest, hh⟩
  · exact .inl ⟨_, step_of_answer he⟩

end Sys2Proof.Machine
end

section
/-! PROOFS. Reset and the length of a call (70_reset_and_hazards.md R180, R190): what reset fixes, and a count of the
micro-operations to come that every step of the sequencer lowers by one. -/

namespace Sys2Proof.Machine

/-! ### The micro-operations to come (R190) -/

/-- The micro-operations that a BUSY engine still runs, the one at its position included: PAD, LOADW with 64
rounds and FOLD for each block not begun, what is left of the block begun, and SER. -/
def microOpsLeft (s : State) : Nat :=
  match s.ustep with
  | .pad => 66 * blockCount s.len + 2
  | .loadw => 66 * (s.nblk - s.blk) + 1
  | .rnd => 66 * (s.nblk - s.blk) - s.i.toNat
  | .fold => 66 * (s.nblk - s.blk) - 64
  | .ser => 1

theorem microOpsLeft_pos {s : State} (hs : s.Inv) (hp : s.phase = .busy) : 0 < microOpsLeft s := by
  cases hu : s.ustep with
  | pad | loadw | ser => simp [microOpsLeft, hu]
  | rnd | fold =>
    have hblk := hs.block hp (by simp [hu])
    have hround := s.i.isLt
    simp only [microOpsLeft, hu]
    omega

/-- The sequencer's move after a round of a block that is not past the last leaves one micro-operation less than the round. -/
theorem microOpsLeft_afterRound {s : State} {r : BitVec 6} {n : Nat} (hn : n < s.nblk) :
    microOpsLeft (afterRound r n s) + 1 = 66 * (s.nblk - n) - r.toNat := by
  have hround := r.isLt
  by_cases hr : r.toNat < 63
  · have hnext : (r + 1#6).toNat = r.toNat + 1 := by
      rw [BitVec.toNat_add, BitVec.toNat_ofNat]
      omega
    rw [afterRound_of_lt hr]
    simp only [microOpsLeft, seqTo_ustep, seqTo_nblk, seqTo_blk, seqTo_i, hnext]
    omega
  · rw [afterRound_last (by omega)]
    simp only [microOpsLeft, seqToBlock_ustep, seqToBlock_nblk, seqToBlock_blk]
    omega

theorem afterRound_phase (r : BitVec 6) (n : Nat) (s : State) : (afterRound r n s).phase = .busy := by
  unfold afterRound
  split <;> rfl

/-- Each micro-operation leaves one less to run, and stays in BUSY unless it was the last. -/
theorem exec_microOp_counts {u : MicroStep} {r : BitVec 6} {s t : State} (hs : s.Inv)
    (h : exec (microOp u r) s = .next t) :
    (t.phase = .busy ∧ microOpsLeft s = microOpsLeft t + 1) ∨ (t.phase = .done ∧ microOpsLeft s = 1) := by
  cases u with
  | pad =>
    obtain ⟨⟨_, hu⟩, h⟩ := enabledAt_next h
    obtain ⟨_, rfl⟩ := withinBuffer_next h
    refine .inl ⟨rfl, ?_⟩
    simp only [microOpsLeft, hu, seqToBlock_ustep, seqToBlock_nblk, seqToBlock_blk, paddedLength_div_eq, blockCount]
    omega
  | loadw =>
    obtain ⟨⟨_, hu⟩, h⟩ := enabledAt_next h
    obtain ⟨_, rfl⟩ := withinBuffer_next h
    exact .inl ⟨rfl, by simp [microOpsLeft, hu]⟩
  | rnd =>
    obtain ⟨hp, hu, rfl, rfl⟩ := roundOf_next ((exec_roundOp r s).symm.trans h)
    refine .inl ⟨afterRound_phase _ _ _, ?_⟩
    rw [microOpsLeft_afterRound (s := roundWrite _ _ _ s) (hs.block hp (.inr (.inl hu)))]
    simp only [microOpsLeft, hu, roundWrite_nblk]
  | fold =>
    obtain ⟨⟨hp, hu⟩, h⟩ := enabledAt_next h
    have hblk := hs.block hp (.inr (.inr hu))
    cases h
    split <;> refine .inl ⟨rfl, ?_⟩
    · simp only [microOpsLeft, hu, seqToBlock_ustep, seqToBlock_nblk, seqToBlock_blk, foldAccumulator_nblk]
      omega
    · simp only [microOpsLeft, hu, seqToStage_ustep]
      omega
  | ser =>
    obtain ⟨_, hu, rfl⟩ := execSer_next h
    exact .inr ⟨rfl, by simp only [microOpsLeft, hu]⟩

/-- With a host that makes no move, a step in BUSY is a micro-operation, and it does not stop. -/
theorem step_of_busy_progress {s : State} (hs : s.Inv) (hp : s.phase = .busy) (hh : s.host = []) :
    ∃ t, step s = .next t ∧ t.Inv ∧ t.host = [] ∧
      ((t.phase = .busy ∧ microOpsLeft s = microOpsLeft t + 1) ∨ (t.phase = .done ∧ microOpsLeft s = 1)) := by
  obtain ⟨t, hexec⟩ := exec_microOp_progress hs hp
  exact ⟨t, (step_of_busy_turn (nextEvent_no_move hh) hp).trans hexec, exec_inv hs hexec,
    (exec_surroundings hexec).host.trans hh, exec_microOp_counts hs hexec⟩

/-! ### From FINISH to DONE (R190) -/

/-- Alone, the engine is in BUSY before each of `n` steps, and after them in DONE without a fault. -/
def BusyThenDone (n : Nat) (s : State) : Prop :=
  (∀ k, k < n → ∃ t, stepN k s = .next t ∧ t.phase = .busy) ∧
    ∃ t, stepN n s = .next t ∧ t.phase = .done ∧ t.fault = .noFault

theorem busyThenDone_zero {s : State} (hp : s.phase = .done) (hf : s.fault = .noFault) : BusyThenDone 0 s :=
  ⟨fun _ hk => absurd hk (Nat.not_lt_zero _), s, rfl, hp, hf⟩

theorem stepN_succ {s t : State} (h : step s = .next t) (n : Nat) : stepN (n + 1) s = stepN n t := by
  simp only [stepN, h]

theorem BusyThenDone.step_before {n : Nat} {s t : State} (ht : BusyThenDone n t) (hp : s.phase = .busy)
    (h : step s = .next t) : BusyThenDone (n + 1) s := by
  obtain ⟨hbusy, hdone⟩ := ht
  refine ⟨fun k hk => ?_, by rwa [stepN_succ h]⟩
  cases k with
  | zero => exact ⟨s, rfl, hp⟩
  | succ k =>
    rw [stepN_succ h]
    exact hbusy k (Nat.lt_of_succ_lt_succ hk)

/-- The count of micro-operations to come is the number of steps to DONE. -/
theorem busyThenDone_of_microOpsLeft {n : Nat} {s : State} (hs : s.Inv) (hp : s.phase = .busy) (hh : s.host = [])
    (hn : microOpsLeft s = n) : BusyThenDone n s := by
  induction n generalizing s with
  | zero => exact absurd hn (microOpsLeft_pos hs hp).ne'
  | succ n ih =>
    obtain ⟨t, hstep, ht, hhost, ⟨hbusy, hcount⟩ | ⟨hdone, hlast⟩⟩ := step_of_busy_progress hs hp hh
    · exact (ih ht hbusy hhost (by omega)).step_before hp hstep
    · obtain rfl : n = 0 := by omega
      exact (busyThenDone_zero hdone (ht.noFault (by simp [hdone]))).step_before hp hstep

/-- Settles O52: FINISH leaves the sequencer at PAD, with `66 * nblk + 2` micro-operations to come. -/
theorem finishEndsInDone : Obligations.FinishEndsInDone := by
  intro s u hs hp hh h
  cases (execFinish_of_absorb hp).symm.trans h
  exact busyThenDone_of_microOpsLeft (seqToStage_pad_inv hs hp) rfl hh rfl

/-! ### Reset (R180) -/

/-- Settles O40: the host's reset is answered in every phase, by the state that `resetEngine` leaves. -/
theorem resetInAnyPhase : Obligations.ResetInAnyPhase := by
  intro s rest hh
  exact ⟨_, step_of_answer (nextEvent_reset hh), rfl, rfl, status_of_phase_fault (resetEngine_phase _) (resetEngine_fault _),
    rfl, rfl, rfl, rfl, fun j => readDigest_of_not_done j (by simp)⟩

end Sys2Proof.Machine
end
